-- ==== Sys2Proof/Word.lean ====
section
/-! DEFINITION. The word types of the block (R9, R20, R24, R72). -/

namespace Sys2Proof

/-- A memory byte, a general register, a timer (R20, R33, R35). -/
abbrev Byte := BitVec 8

/-- `I`, `PC`, a stack slot, an instruction word (R24, R25, R29, R72). -/
abbrev Word := BitVec 16

/-- The index of a general register `V0`..`VF` (R20, R73). -/
abbrev RegIdx := Fin 16

/-- A logical key 0x0..0xF (R16, R37, D23). -/
abbrev KeyIdx := Fin 16

end Sys2Proof
end

