-- ==== Sys2Proof/Syntax.lean ====
section
/-! DEFINITION. The instructions: one constructor per row of spec/opcode_table.json (R80). -/

namespace Sys2Proof

/-- An instruction with its operands (R73, R74). A register is its index, `kk` a byte, `nnn` the
16-bit word `zext_16(nnn)` of R75 (below 0x1000 in a well-formed term), `n` a row count (at most 15
in a well-formed term). -/
inductive Instr where
  /-- `00E0` CLS (R163) -/
  | cls
  /-- `00EE` RET (R101) -/
  | ret
  /-- `1nnn` JP (R102) -/
  | jp (nnn : Word)
  /-- `2nnn` CALL (R103) -/
  | call (nnn : Word)
  /-- `3xkk` SE_IMM (R105) -/
  | seImm (x : RegIdx) (kk : Byte)
  /-- `4xkk` SNE_IMM (R106) -/
  | sneImm (x : RegIdx) (kk : Byte)
  /-- `5xy0` SE_REG (R107) -/
  | seReg (x y : RegIdx)
  /-- `6xkk` LD_IMM (R121) -/
  | ldImm (x : RegIdx) (kk : Byte)
  /-- `7xkk` ADD_IMM (R122) -/
  | addImm (x : RegIdx) (kk : Byte)
  /-- `8xy0` LD_REG (R123) -/
  | ldReg (x y : RegIdx)
  /-- `8xy1` OR (R124) -/
  | orReg (x y : RegIdx)
  /-- `8xy2` AND (R125) -/
  | andReg (x y : RegIdx)
  /-- `8xy3` XOR (R126) -/
  | xorReg (x y : RegIdx)
  /-- `8xy4` ADD_REG (R127) -/
  | addReg (x y : RegIdx)
  /-- `8xy5` SUB (R128) -/
  | sub (x y : RegIdx)
  /-- `8xy6` SHR (R129); `y` is decoded and unused -/
  | shr (x y : RegIdx)
  /-- `8xy7` SUBN (R130) -/
  | subn (x y : RegIdx)
  /-- `8xyE` SHL (R131); `y` is decoded and unused -/
  | shl (x y : RegIdx)
  /-- `9xy0` SNE_REG (R108) -/
  | sneReg (x y : RegIdx)
  /-- `Annn` LD_I (R140) -/
  | ldI (nnn : Word)
  /-- `Bnnn` JP_V0 (R109) -/
  | jpV0 (nnn : Word)
  /-- `Cxkk` RND (R181) -/
  | rnd (x : RegIdx) (kk : Byte)
  /-- `Dxyn` DRW (R164) -/
  | drw (x y : RegIdx) (n : Nat)
  /-- `Ex9E` SKP (R182) -/
  | skp (x : RegIdx)
  /-- `ExA1` SKNP (R183) -/
  | sknp (x : RegIdx)
  /-- `Fx07` LD_VX_DT (R185) -/
  | ldVxDt (x : RegIdx)
  /-- `Fx0A` LD_VX_K (R184) -/
  | ldVxK (x : RegIdx)
  /-- `Fx15` LD_DT_VX (R186) -/
  | ldDtVx (x : RegIdx)
  /-- `Fx18` LD_ST_VX (R187) -/
  | ldStVx (x : RegIdx)
  /-- `Fx1E` ADD_I (R141) -/
  | addI (x : RegIdx)
  /-- `Fx29` LD_F (R142) -/
  | ldF (x : RegIdx)
  /-- `Fx33` LD_B (R143) -/
  | ldB (x : RegIdx)
  /-- `Fx55` LD_MEM_VX (R144) -/
  | ldMemVx (x : RegIdx)
  /-- `Fx65` LD_VX_MEM (R145) -/
  | ldVxMem (x : RegIdx)
  deriving DecidableEq, Repr

end Sys2Proof
end

