-- ==== Sys2Proof/WellFormed.lean ====
section
/-! DEFINITION. Which terms of `Instr` an instruction word can stand for (R73, R75): the address
operand has 12 bits, the sprite height 4. Register indices and bytes have their range by type. -/

namespace Sys2Proof

/-- `nnn` is the zero extension of a 12-bit value (R75). -/
def addrOk (nnn : Word) : Bool := decide (nnn.toNat < 0x1000)

/-- `n` is a 4-bit value (R75). -/
def heightOk (n : Nat) : Bool := decide (n < 16)

/-- The operand checks of one instruction. -/
def Instr.wellFormed : Instr → Bool
  | .cls => true
  | .ret => true
  | .jp nnn => addrOk nnn
  | .call nnn => addrOk nnn
  | .seImm _ _ => true
  | .sneImm _ _ => true
  | .seReg _ _ => true
  | .ldImm _ _ => true
  | .addImm _ _ => true
  | .ldReg _ _ => true
  | .orReg _ _ => true
  | .andReg _ _ => true
  | .xorReg _ _ => true
  | .addReg _ _ => true
  | .sub _ _ => true
  | .shr _ _ => true
  | .subn _ _ => true
  | .shl _ _ => true
  | .sneReg _ _ => true
  | .ldI nnn => addrOk nnn
  | .jpV0 nnn => addrOk nnn
  | .rnd _ _ => true
  | .drw _ _ n => heightOk n
  | .skp _ => true
  | .sknp _ => true
  | .ldVxDt _ => true
  | .ldVxK _ => true
  | .ldDtVx _ => true
  | .ldStVx _ => true
  | .addI _ => true
  | .ldF _ => true
  | .ldB _ => true
  | .ldMemVx _ => true
  | .ldVxMem _ => true

/-- A well-formed instruction: one some 16-bit word encodes. -/
abbrev WellFormed (i : Instr) : Prop := i.wellFormed = true

end Sys2Proof
end

