-- ==== Sys2Proof/Decode.lean ====
section
/-! DEFINITION. Decoding (R71, R73, R77, R81), encoding and the opcode map (R74, R80). The decoder is
the two-level switch of R81; the table of R80 stands beside it so that their agreement can be stated. -/

namespace Sys2Proof

/-- What the decoder answers. -/
inductive Decoded where
  /-- The word is this instruction. -/
  | instr (i : Instr)
  /-- The word matches no row of R80: an unknown opcode, executed as a no-op (R88). -/
  | unknown (op : Word)
  /-- Fewer than two bytes were given; an instruction is exactly two (R72). -/
  | truncated
  deriving DecidableEq, Repr

/-- `op[hi:lo]` (R10): the unsigned value of bits `hi` down to `lo`. -/
def bits (op : Word) (hi lo : Nat) : Nat := op.toNat / 2 ^ lo % 2 ^ (hi + 1 - lo)

/-- The field `x` (R73). -/
def fieldX (op : Word) : RegIdx := Fin.ofNat 16 (bits op 11 8)

/-- The field `y` (R73). -/
def fieldY (op : Word) : RegIdx := Fin.ofNat 16 (bits op 7 4)

/-- The field `n` (R73). -/
def fieldN (op : Word) : Nat := bits op 3 0

/-- The field `kk` (R73). -/
def fieldKK (op : Word) : Byte := BitVec.ofNat 8 (bits op 7 0)

/-- The field `nnn` as `zext_16(nnn)` (R73, R75). -/
def fieldNNN (op : Word) : Word := BitVec.ofNat 16 (bits op 11 0)

/-- Top nibble 0x0: the whole word selects (R77, R90). -/
def decode0 (op : Word) : Decoded :=
  if op = 0x00E0 then .instr .cls
  else if op = 0x00EE then .instr .ret
  else .unknown op

/-- Top nibble 0x8: `n` selects (R77, R81). -/
def decode8 (op : Word) : Decoded :=
  match fieldN op with
  | 0x0 => .instr (.ldReg (fieldX op) (fieldY op))
  | 0x1 => .instr (.orReg (fieldX op) (fieldY op))
  | 0x2 => .instr (.andReg (fieldX op) (fieldY op))
  | 0x3 => .instr (.xorReg (fieldX op) (fieldY op))
  | 0x4 => .instr (.addReg (fieldX op) (fieldY op))
  | 0x5 => .instr (.sub (fieldX op) (fieldY op))
  | 0x6 => .instr (.shr (fieldX op) (fieldY op))
  | 0x7 => .instr (.subn (fieldX op) (fieldY op))
  | 0xE => .instr (.shl (fieldX op) (fieldY op))
  | _ => .unknown op

/-- Top nibble 0xE: `kk` selects (R77, R81). -/
def decodeE (op : Word) : Decoded :=
  match bits op 7 0 with
  | 0x9E => .instr (.skp (fieldX op))
  | 0xA1 => .instr (.sknp (fieldX op))
  | _ => .unknown op

/-- Top nibble 0xF: `kk` selects (R77, R81). -/
def decodeF (op : Word) : Decoded :=
  match bits op 7 0 with
  | 0x07 => .instr (.ldVxDt (fieldX op))
  | 0x0A => .instr (.ldVxK (fieldX op))
  | 0x15 => .instr (.ldDtVx (fieldX op))
  | 0x18 => .instr (.ldStVx (fieldX op))
  | 0x1E => .instr (.addI (fieldX op))
  | 0x29 => .instr (.ldF (fieldX op))
  | 0x33 => .instr (.ldB (fieldX op))
  | 0x55 => .instr (.ldMemVx (fieldX op))
  | 0x65 => .instr (.ldVxMem (fieldX op))
  | _ => .unknown op

/-- The decoder: the top nibble selects (R77, R81). Total; an unmatched word is rejected by name. -/
def decodeWord (op : Word) : Decoded :=
  match bits op 15 12 with
  | 0x0 => decode0 op
  | 0x1 => .instr (.jp (fieldNNN op))
  | 0x2 => .instr (.call (fieldNNN op))
  | 0x3 => .instr (.seImm (fieldX op) (fieldKK op))
  | 0x4 => .instr (.sneImm (fieldX op) (fieldKK op))
  | 0x5 => if fieldN op = 0 then .instr (.seReg (fieldX op) (fieldY op)) else .unknown op
  | 0x6 => .instr (.ldImm (fieldX op) (fieldKK op))
  | 0x7 => .instr (.addImm (fieldX op) (fieldKK op))
  | 0x8 => decode8 op
  | 0x9 => if fieldN op = 0 then .instr (.sneReg (fieldX op) (fieldY op)) else .unknown op
  | 0xA => .instr (.ldI (fieldNNN op))
  | 0xB => .instr (.jpV0 (fieldNNN op))
  | 0xC => .instr (.rnd (fieldX op) (fieldKK op))
  | 0xD => .instr (.drw (fieldX op) (fieldY op) (fieldN op))
  | 0xE => decodeE op
  | 0xF => decodeF op
  | _ => .unknown op

/-- The 16-bit word of two bytes, high byte first (R52, R55). -/
def wordOf (hi lo : Byte) : Word := BitVec.ofNat 16 (hi.toNat * 256 + lo.toNat)

/-- The two bytes of a word, high byte first. -/
def bytesOf (op : Word) : Byte × Byte :=
  (BitVec.ofNat 8 (bits op 15 8), BitVec.ofNat 8 (bits op 7 0))

/-- Decode the first instruction of a byte string; always two bytes (R72). -/
def decodeBytes : List Byte → Decoded × List Byte
  | hi :: lo :: rest => (decodeWord (wordOf hi lo), rest)
  | short => (.truncated, short)

/-! ### Encoding, by format (R74) -/

/-- ADDR: `oooo aaaa aaaa aaaa`. -/
def encAddr (o : Nat) (nnn : Word) : Word := BitVec.ofNat 16 (o * 4096 + nnn.toNat)

/-- REG_IMM: `oooo xxxx kkkk kkkk`. -/
def encRegImm (o : Nat) (x : RegIdx) (kk : Byte) : Word :=
  BitVec.ofNat 16 (o * 4096 + x.val * 256 + kk.toNat)

/-- REG_REG and REG_REG_N: `oooo xxxx yyyy ffff`, where the low nibble is fixed or `n`. -/
def encRegReg (o : Nat) (x y : RegIdx) (low : Nat) : Word :=
  BitVec.ofNat 16 (o * 4096 + x.val * 256 + y.val * 16 + low)

/-- REG: `oooo xxxx ffff ffff`. -/
def encReg (o : Nat) (x : RegIdx) (low : Nat) : Word :=
  BitVec.ofNat 16 (o * 4096 + x.val * 256 + low)

/-- The word of a well-formed instruction (R74, R80). -/
def encode : Instr → Word
  | .cls => 0x00E0
  | .ret => 0x00EE
  | .jp nnn => encAddr 0x1 nnn
  | .call nnn => encAddr 0x2 nnn
  | .seImm x kk => encRegImm 0x3 x kk
  | .sneImm x kk => encRegImm 0x4 x kk
  | .seReg x y => encRegReg 0x5 x y 0x0
  | .ldImm x kk => encRegImm 0x6 x kk
  | .addImm x kk => encRegImm 0x7 x kk
  | .ldReg x y => encRegReg 0x8 x y 0x0
  | .orReg x y => encRegReg 0x8 x y 0x1
  | .andReg x y => encRegReg 0x8 x y 0x2
  | .xorReg x y => encRegReg 0x8 x y 0x3
  | .addReg x y => encRegReg 0x8 x y 0x4
  | .sub x y => encRegReg 0x8 x y 0x5
  | .shr x y => encRegReg 0x8 x y 0x6
  | .subn x y => encRegReg 0x8 x y 0x7
  | .shl x y => encRegReg 0x8 x y 0xE
  | .sneReg x y => encRegReg 0x9 x y 0x0
  | .ldI nnn => encAddr 0xA nnn
  | .jpV0 nnn => encAddr 0xB nnn
  | .rnd x kk => encRegImm 0xC x kk
  | .drw x y n => encRegReg 0xD x y n
  | .skp x => encReg 0xE x 0x9E
  | .sknp x => encReg 0xE x 0xA1
  | .ldVxDt x => encReg 0xF x 0x07
  | .ldVxK x => encReg 0xF x 0x0A
  | .ldDtVx x => encReg 0xF x 0x15
  | .ldStVx x => encReg 0xF x 0x18
  | .addI x => encReg 0xF x 0x1E
  | .ldF x => encReg 0xF x 0x29
  | .ldB x => encReg 0xF x 0x33
  | .ldMemVx x => encReg 0xF x 0x55
  | .ldVxMem x => encReg 0xF x 0x65

/-- The two bytes of an instruction, as memory holds them (R72). -/
def encodeBytes (i : Instr) : List Byte := [(bytesOf (encode i)).1, (bytesOf (encode i)).2]

/-! ### The opcode map (R80) -/

/-- One row of R80: a word is the row's instruction when `op & mask = fixed`. -/
structure OpcodeRow where
  mnemonic : String
  fixed : Word
  mask : Word
  deriving DecidableEq, Repr

/-- Rows 1 to 9 of R80. -/
def opcodeRows1to9 : List OpcodeRow :=
  [⟨"CLS", 0x00E0, 0xFFFF⟩, ⟨"RET", 0x00EE, 0xFFFF⟩, ⟨"JP", 0x1000, 0xF000⟩,
   ⟨"CALL", 0x2000, 0xF000⟩, ⟨"SE_IMM", 0x3000, 0xF000⟩, ⟨"SNE_IMM", 0x4000, 0xF000⟩,
   ⟨"SE_REG", 0x5000, 0xF00F⟩, ⟨"LD_IMM", 0x6000, 0xF000⟩, ⟨"ADD_IMM", 0x7000, 0xF000⟩]

/-- Rows 10 to 18 of R80: the 0x8 family. -/
def opcodeRows10to18 : List OpcodeRow :=
  [⟨"LD_REG", 0x8000, 0xF00F⟩, ⟨"OR", 0x8001, 0xF00F⟩, ⟨"AND", 0x8002, 0xF00F⟩,
   ⟨"XOR", 0x8003, 0xF00F⟩, ⟨"ADD_REG", 0x8004, 0xF00F⟩, ⟨"SUB", 0x8005, 0xF00F⟩,
   ⟨"SHR", 0x8006, 0xF00F⟩, ⟨"SUBN", 0x8007, 0xF00F⟩, ⟨"SHL", 0x800E, 0xF00F⟩]

/-- Rows 19 to 25 of R80. -/
def opcodeRows19to25 : List OpcodeRow :=
  [⟨"SNE_REG", 0x9000, 0xF00F⟩, ⟨"LD_I", 0xA000, 0xF000⟩, ⟨"JP_V0", 0xB000, 0xF000⟩,
   ⟨"RND", 0xC000, 0xF000⟩, ⟨"DRW", 0xD000, 0xF000⟩, ⟨"SKP", 0xE09E, 0xF0FF⟩,
   ⟨"SKNP", 0xE0A1, 0xF0FF⟩]

/-- Rows 26 to 34 of R80: the 0xF family. -/
def opcodeRows26to34 : List OpcodeRow :=
  [⟨"LD_VX_DT", 0xF007, 0xF0FF⟩, ⟨"LD_VX_K", 0xF00A, 0xF0FF⟩, ⟨"LD_DT_VX", 0xF015, 0xF0FF⟩,
   ⟨"LD_ST_VX", 0xF018, 0xF0FF⟩, ⟨"ADD_I", 0xF01E, 0xF0FF⟩, ⟨"LD_F", 0xF029, 0xF0FF⟩,
   ⟨"LD_B", 0xF033, 0xF0FF⟩, ⟨"LD_MEM_VX", 0xF055, 0xF0FF⟩, ⟨"LD_VX_MEM", 0xF065, 0xF0FF⟩]

/-- The complete opcode map (R80). -/
def opcodeTable : List OpcodeRow :=
  opcodeRows1to9 ++ opcodeRows10to18 ++ opcodeRows19to25 ++ opcodeRows26to34

/-- The row's fixed bits equal the word's bits under the row's mask (R71). -/
def rowMatches (op : Word) (row : OpcodeRow) : Bool := op &&& row.mask == row.fixed

/-- The mnemonic id of an instruction in R80. -/
def mnemonicOf : Instr → String
  | .cls => "CLS"
  | .ret => "RET"
  | .jp _ => "JP"
  | .call _ => "CALL"
  | .seImm _ _ => "SE_IMM"
  | .sneImm _ _ => "SNE_IMM"
  | .seReg _ _ => "SE_REG"
  | .ldImm _ _ => "LD_IMM"
  | .addImm _ _ => "ADD_IMM"
  | .ldReg _ _ => "LD_REG"
  | .orReg _ _ => "OR"
  | .andReg _ _ => "AND"
  | .xorReg _ _ => "XOR"
  | .addReg _ _ => "ADD_REG"
  | .sub _ _ => "SUB"
  | .shr _ _ => "SHR"
  | .subn _ _ => "SUBN"
  | .shl _ _ => "SHL"
  | .sneReg _ _ => "SNE_REG"
  | .ldI _ => "LD_I"
  | .jpV0 _ => "JP_V0"
  | .rnd _ _ => "RND"
  | .drw _ _ _ => "DRW"
  | .skp _ => "SKP"
  | .sknp _ => "SKNP"
  | .ldVxDt _ => "LD_VX_DT"
  | .ldVxK _ => "LD_VX_K"
  | .ldDtVx _ => "LD_DT_VX"
  | .ldStVx _ => "LD_ST_VX"
  | .addI _ => "ADD_I"
  | .ldF _ => "LD_F"
  | .ldB _ => "LD_B"
  | .ldMemVx _ => "LD_MEM_VX"
  | .ldVxMem _ => "LD_VX_MEM"

/-- The instruction this decoder reads from the word whose low `nbits` bits are `w` (the table's one
word is 16 bits; bits above `nbits` are 0), laid out high byte first as memory holds it. -/
def decodeTableWord (nbits w : Nat) : Option Instr :=
  let op : Word := BitVec.ofNat 16 (w % 2 ^ nbits)
  match (decodeBytes [(bytesOf op).1, (bytesOf op).2]).1 with
  | .instr i => some i
  | .unknown _ => none
  | .truncated => none

end Sys2Proof
end

