-- ==== Sys2Proof/Config.lean ====
section
/-! DEFINITION. What an implementation fixes: the parameters of R9 and the free value of R180. -/

namespace Sys2Proof

/-- The parameter `VF_ORDER` (R9, R120, D6): how the two writes of `8xy5`, `8xy6`, `8xy7` and `8xyE`
are ordered when `VF` is an operand. -/
inductive VfOrder where
  /-- The statements run in the order the source's table writes them: `VF` first (the default). -/
  | asWritten
  /-- Both results from the old operands; `Vx` is written, then `VF`. -/
  | flagLast
  deriving DecidableEq, Repr

namespace Config

/-- `MEM_SIZE` (R9, R35). -/
def memSize : Nat := 4096

/-- `PROGRAM_BASE` (R9, R58). -/
def programBase : Nat := 0x200

/-- `MAX_PROGRAM` (R9, R242). -/
def maxProgram : Nat := 3584

/-- `STACK_DEPTH` (R9, R29). -/
def stackDepth : Nat := 16

/-- `GLYPH_BYTES` (R9, R41). -/
def glyphBytes : Nat := 5

/-- Glyphs 0 to 7 of the default `FONT_GLYPHS` (R41). PRESUMED [log 2]. -/
def glyphs0to7 : List Byte :=
  [0xF0, 0x90, 0x90, 0x90, 0xF0] ++ [0x20, 0x60, 0x20, 0x20, 0x70] ++
  [0xF0, 0x10, 0xF0, 0x80, 0xF0] ++ [0xF0, 0x10, 0xF0, 0x10, 0xF0] ++
  [0x90, 0x90, 0xF0, 0x10, 0x10] ++ [0xF0, 0x80, 0xF0, 0x10, 0xF0] ++
  [0xF0, 0x80, 0xF0, 0x90, 0xF0] ++ [0xF0, 0x10, 0x20, 0x40, 0x40]

/-- Glyphs 8 to F of the default `FONT_GLYPHS` (R41). PRESUMED [log 2]. -/
def glyphs8toF : List Byte :=
  [0xF0, 0x90, 0xF0, 0x90, 0xF0] ++ [0xF0, 0x90, 0xF0, 0x10, 0xF0] ++
  [0xF0, 0x90, 0xF0, 0x90, 0x90] ++ [0xE0, 0x90, 0xE0, 0x90, 0xE0] ++
  [0xF0, 0x80, 0x80, 0x80, 0xF0] ++ [0xE0, 0x90, 0x90, 0x90, 0xE0] ++
  [0xF0, 0x80, 0xF0, 0x80, 0xF0] ++ [0xF0, 0x80, 0xF0, 0x80, 0x80]

/-- The default of the parameter `FONT_GLYPHS` (R9, R41, D14): 80 bytes from address 0.
PRESUMED [log 2]; `State.construct` takes any other 80 bytes. -/
def fontGlyphs : List Byte := glyphs0to7 ++ glyphs8toF

/-- The free value of R180 and D16: the byte on the `rand` port at the `n`-th draw past the end of
the input list. It has no body, so nothing can be proved of its value [log 3]. -/
opaque randomByte : Nat → Byte

end Config

end Sys2Proof
end

