-- ==== Sys2Proof/Machine/State.lean ====
section
/-! DEFINITION. The state of the block (10_state.md), the reasons it stops, and the state after
construction (R40, R240). -/

namespace Sys2Proof.Machine

/-- Which check an `OutOfBounds` fault comes from (R200, codes 0x01 to 0x05). -/
inductive Access where
  /-- Instruction fetch (R52, R70). -/
  | fetch
  /-- A byte read of `Dxyn` or `Fx65` (R50). -/
  | read
  /-- A byte write of `Fx33` or `Fx55` (R51). -/
  | write
  /-- `2nnn` with all 16 slots occupied (R30). -/
  | stackPush
  /-- `00EE` with no slot occupied (R31). -/
  | stackPop
  deriving DecidableEq, Repr

/-- The fault records of R200. Raising one is a next state whose `run` is `faulted` (R201); `step`
answers the host outcome `fault` with the record when the machine is already faulted [log 5]. -/
inductive Fault where
  /-- `OutOfBounds(kind, a)`, with the recorded value of R200. Raised by the fetch, by `Dxyn`, `Fx65`,
  `Fx33`, `Fx55`, `2nnn` and `00EE`. Safe: the source calls it fatal. -/
  | outOfBounds (kind : Access) (a : Nat)
  /-- `KeyIndexUndefined(v)` (R188, D5). Raised by `Ex9E` and `ExA1` when `Vx = v > 0xF`. Safe: the
  spec stops where the source gives no behaviour. -/
  | keyIndexUndefined (v : Byte)
  deriving DecidableEq, Repr

/-- Reasons to have no meaning. -/
inductive Refusal where
  /-- The instruction has no meaning in the model yet. No arm of `exec` raises it now. Safe. -/
  | notModelled (mnemonic : String)
  deriving DecidableEq, Repr

/-- The run state `RUN` (R7, R38). -/
inductive RunState where
  /-- The next instruction step may occur. -/
  | running
  /-- `Fx0A` is suspended and will write `Vx` (R184, R219). -/
  | waitingKey (x : RegIdx)
  /-- A fatal fault was raised; nothing changes the state again (R201). -/
  | faulted (f : Fault)
  deriving DecidableEq, Repr

/-- The environment's events (R6). -/
inductive Event where
  /-- The pacing collaborator's decrement (R215). -/
  | tick
  /-- Logical key `k` pressed (R212). -/
  | keyDown (k : KeyIdx)
  /-- Logical key `k` released (R213). -/
  | keyUp (k : KeyIdx)
  deriving DecidableEq, Repr

/-- Memory as (address, byte) pairs, addresses rising, no entry equal to what an unlisted address
reads as (`Memory.unlisted`, `Memory.wf` in Machine/Ops.lean) [log 9]. -/
abbrev Memory := List Host.Cell

/-- The framebuffer, one 64-bit row per `y`; bit `x` of row `y` is `FB[x][y]` (R36) [log 11]. -/
abbrev Framebuffer := Vector (BitVec 64) 32

/-- The machine state: the tuple of 10_state.md, then the parameter `VF_ORDER` and the inputs of the
environment as plain data. -/
structure State where
  /-- `V0`..`VF` (R20, R21) -/
  v : Vector Byte 16
  /-- `I` (R24) -/
  i : Word
  /-- `PC` (R25) -/
  pc : Word
  /-- `SP`, the number of occupied stack slots, 0..16 (R28) [log 7] -/
  sp : Fin 17
  /-- `STACK[0]`..`STACK[15]` (R29) -/
  stack : Vector Word 16
  /-- `DT` (R33) -/
  dt : Byte
  /-- `ST` (R33) -/
  st : Byte
  /-- `MEM` (R35) -/
  mem : Memory
  /-- `FB` (R36) -/
  fb : Framebuffer
  /-- `KEY`, bit `k` for logical key `k` (R37) -/
  key : BitVec 16
  /-- `RUN` (R7, R38) -/
  run : RunState
  /-- The parameter `VF_ORDER` (R9, R120); no step changes it [log 1] -/
  vfOrder : VfOrder
  /-- Input: the events delivered before each coming instruction step, in order (R6) [log 4] -/
  schedule : List (List Event)
  /-- Input: the bytes of the coming random draws (R8, R180) [log 3] -/
  rand : List Byte
  /-- The number of draws past the end of `rand`, each a free value (R180) [log 3] -/
  draws : Nat
  deriving DecidableEq, Repr

/-- The state after construction, with the default parameters (R40, R240, R241). Memory lists
nothing: an unlisted byte reads as its construction value. -/
def State.reset : State where
  v := Vector.replicate 16 0
  i := 0
  pc := 0
  sp := 0
  stack := Vector.replicate 16 0
  dt := 0
  st := 0
  mem := []
  fb := Vector.replicate 32 0
  key := 0
  run := .running
  vfOrder := .asWritten
  schedule := []
  rand := []
  draws := 0

end Sys2Proof.Machine
end

