-- ==== Sys2Proof/Machine/Ops.lean ====
section
/-! DEFINITION. The named operations over registers, memory, the call stack, the framebuffer, the
keypad and the run state: the primitives of R14, R30, R31, R50 to R52, R104, R160 to R162, R180. -/

namespace Sys2Proof.Machine

/-! ### Registers -/

/-- The content of `Vr` (R20). -/
def State.reg (s : State) (r : RegIdx) : Byte := s.v.get r

/-- `V[r] <- b` (R11); no register is hardwired (R20). -/
def State.setReg (s : State) (r : RegIdx) (b : Byte) : State :=
  { s with v := s.v.set r.val b r.isLt }

/-- `I <- w` (R24). -/
def State.setI (s : State) (w : Word) : State := { s with i := w }

/-- `PC <- w` (R27). -/
def State.setPc (s : State) (w : Word) : State := { s with pc := w }

/-- `DT <- b` (R33). -/
def State.setDt (s : State) (b : Byte) : State := { s with dt := b }

/-- `ST <- b` (R33). -/
def State.setSt (s : State) (b : Byte) : State := { s with st := b }

/-- `PC <- (PC + 2) mod 65536`: the fetch advance of R70. -/
def State.advance (s : State) : State := { s with pc := s.pc + 2 }

/-- `Skip()` (R104): 2 more bytes, on top of the fetch advance. -/
def State.skip (s : State) : State := { s with pc := s.pc + 2 }

/-! ### Faults -/

/-- `RUN <- r` (R7). -/
def State.setRun (s : State) (r : RunState) : State := { s with run := r }

/-- `raise f` (R14, R201): `RUN <- Faulted(f)`. There is no trap entry, vector or saved register
(R208), and no return from a fault (R209), so this is the whole of it [log 5]. -/
def State.raise (s : State) (f : Fault) : State := s.setRun (.faulted f)

/-- The fault code of R200 (D26). -/
def faultCode : Fault → Nat
  | .outOfBounds .fetch _ => 0x01
  | .outOfBounds .read _ => 0x02
  | .outOfBounds .write _ => 0x03
  | .outOfBounds .stackPush _ => 0x04
  | .outOfBounds .stackPop _ => 0x05
  | .keyIndexUndefined _ => 0x10

/-! ### Memory -/

/-- What an address reads as while nothing is listed for it: the construction contents of R40, the
default font (R41) [log 2] from 0x000, zero after it [log 9]. -/
def Memory.unlisted (a : Nat) : Byte := Config.fontGlyphs.getD a 0

/-- `MEM[a]`. -/
def Memory.get : Memory → Nat → Byte
  | [], a => Memory.unlisted a
  | (b, v) :: m, a => if a = b then v else Memory.get m a

/-- List `MEM[a] = v` in front of `m`, unless that is what an unlisted address reads as. -/
def Memory.listed (a : Nat) (v : Byte) (m : Memory) : Memory :=
  if v = Memory.unlisted a then m else (a, v) :: m

/-- `MEM[a] <- v`, keeping the canonical form. -/
def Memory.put : Memory → Nat → Byte → Memory
  | [], a, v => Memory.listed a v []
  | (b, w) :: m, a, v =>
    if a < b then Memory.listed a v ((b, w) :: m)
    else if a = b then Memory.listed a v m
    else (b, w) :: Memory.put m a v

/-- The canonical form from address `lo` on: addresses rising, below 4096, no entry that equals what
an unlisted address reads as. -/
def Memory.wfFrom : Nat → Memory → Bool
  | _, [] => true
  | lo, (a, v) :: m =>
    decide (lo ≤ a) && decide (a < Config.memSize) && (v != Memory.unlisted a) && Memory.wfFrom (a + 1) m

/-- The canonical form of memory. -/
def Memory.wf (m : Memory) : Bool := Memory.wfFrom 0 m

/-- Consecutive bytes written from address `a` on; the loader's loop (R243), no bounds check. -/
def Memory.putBytes : Memory → Nat → List Byte → Memory
  | m, _, [] => m
  | m, a, b :: bs => Memory.putBytes (Memory.put m a b) (a + 1) bs

/-- `MemRead(a, 1)` (R50). -/
def memRead (m : Memory) (a : Nat) : Except Fault Byte :=
  if a < Config.memSize then .ok (m.get a) else .error (.outOfBounds .read a)

/-- `MemRead(a, 2)` (R52), used only by the fetch: both bytes are checked, high byte first. -/
def fetchWord (m : Memory) (a : Nat) : Except Fault Word :=
  if a + 1 < Config.memSize then .ok (wordOf (m.get a) (m.get (a + 1)))
  else .error (.outOfBounds .fetch a)

/-- `MEM[a] <- v` in the state. -/
def State.storeByte (s : State) (a : Nat) (v : Byte) : State := { s with mem := s.mem.put a v }

/-- `MemWrite(a, 1, v)` (R51). -/
def memWrite (s : State) (a : Nat) (v : Byte) : Except Fault State :=
  if a < Config.memSize then .ok (s.storeByte a v) else .error (.outOfBounds .write a)

/-- `MemRead(a + r, 1)` for `r = 0, 1, ..., n - 1`, in increasing order, stopping at the first fault
(R164, R205). -/
def readBytes (m : Memory) : Nat → Nat → Except Fault (List Byte)
  | _, 0 => .ok []
  | a, n + 1 =>
    match memRead m a with
    | .error f => .error f
    | .ok b =>
      match readBytes m (a + 1) n with
      | .error f => .error f
      | .ok bs => .ok (b :: bs)

/-- `MemWrite` of consecutive bytes from address `a` on, in increasing order; a fault ends it with
the earlier writes done (R203, R205). -/
def storeBytes : Nat → List Byte → State → State
  | _, [], s => s
  | a, b :: bs, s =>
    match memWrite s a b with
    | .error f => s.raise f
    | .ok s' => storeBytes (a + 1) bs s'

/-- `V[r] <- MemRead(a, 1)` for the listed registers and consecutive addresses, in order; a fault
ends it with the earlier registers loaded (R203, R205). -/
def loadRegs : Nat → List RegIdx → State → State
  | _, [], s => s
  | a, r :: rs, s =>
    match memRead s.mem a with
    | .error f => s.raise f
    | .ok b => loadRegs (a + 1) rs (s.setReg r b)

/-! ### The call stack -/

/-- `Push(v)` (R30). -/
def push (s : State) (w : Word) : Except Fault State :=
  if h : s.sp.val < 16 then
    .ok { s with stack := s.stack.set s.sp.val w h, sp := ⟨s.sp.val + 1, Nat.succ_lt_succ h⟩ }
  else .error (.outOfBounds .stackPush s.sp.val)

/-- `Pop()` (R31): the value and the state with one slot fewer; the slot keeps its content. -/
def pop (s : State) : Except Fault (Word × State) :=
  match s.sp with
  | ⟨0, _⟩ => .error (.outOfBounds .stackPop 0)
  | ⟨j + 1, h⟩ =>
    .ok (s.stack.get ⟨j, Nat.lt_of_succ_lt_succ h⟩, { s with sp := ⟨j, Nat.lt_of_succ_lt h⟩ })

/-! ### The framebuffer -/

/-- `is_set(x, y)` with wraparound coordinates (R161). -/
def Framebuffer.isSet (fb : Framebuffer) (x y : Nat) : Bool :=
  (fb.get (Fin.ofNat 32 y)).getLsbD (x % 64)

/-- `FB[x mod 64][y mod 32] <- FB[x mod 64][y mod 32] ^ bit` (R162). -/
def Framebuffer.xorPixel (fb : Framebuffer) (x y : Nat) (bit : Bool) : Framebuffer :=
  let row := fb.get (Fin.ofNat 32 y)
  let flip : BitVec 64 := if bit then BitVec.twoPow 64 (x % 64) else 0
  fb.set (Fin.ofNat 32 y).val (row ^^^ flip) (Fin.ofNat 32 y).isLt

/-- `Clear()` (R160). -/
def Framebuffer.clear : Framebuffer := Vector.replicate 32 0

/-- Bit `col` of a sprite byte, bit 7 leftmost (R10, R162). -/
def spriteBit (b : Byte) (col : Nat) : Bool := b.getLsbD (7 - col)

/-- One pixel of the blit: collision so far and the framebuffer (R162). -/
def blitPixel (x y : Nat) (b : Byte) (acc : Bool × Framebuffer) (col : Nat) : Bool × Framebuffer :=
  (acc.1 || (spriteBit b col && acc.2.isSet (x + col) y),
   acc.2.xorPixel (x + col) y (spriteBit b col))

/-- One sprite row of the blit: `col` in 0..7 (R162). -/
def blitRow (x y : Nat) (b : Byte) (acc : Bool × Framebuffer) : Bool × Framebuffer :=
  [0, 1, 2, 3, 4, 5, 6, 7].foldl (blitPixel x y b) acc

/-- The rows of the blit from row `y` down (R162). -/
def blitRows (x : Nat) : Nat → List Byte → Bool × Framebuffer → Bool × Framebuffer
  | _, [], acc => acc
  | y, b :: bs, acc => blitRows x (y + 1) bs (blitRow x y b acc)

/-- `Blit(x0, y0, bytes)` (R162): the collision and the new framebuffer. -/
def blit (fb : Framebuffer) (x0 y0 : Nat) (bytes : List Byte) : Bool × Framebuffer :=
  blitRows x0 y0 bytes (false, fb)

/-- `FB <- fb` (R36). -/
def State.setFb (s : State) (fb : Framebuffer) : State := { s with fb := fb }

/-! ### The keypad and the random byte -/

/-- `KEY[k]` (R37, R214). -/
def State.isDown (s : State) (k : KeyIdx) : Bool := s.key.getLsbD k.val

/-- `KEY[k] <- b` (R212, R213). -/
def State.setKey (s : State) (k : KeyIdx) (b : Bool) : State :=
  let one : BitVec 16 := BitVec.twoPow 16 k.val
  { s with key := if b then s.key ||| one else s.key &&& ~~~one }

/-- `Draw()` (R180): the byte on the `rand` port, and the state with that input consumed. The listed
bytes come first; past their end every draw is a free value of its own [log 3]. -/
def State.draw (s : State) : Byte × State :=
  match s.rand with
  | r :: rest => (r, { s with rand := rest })
  | [] => (Config.randomByte s.draws, { s with draws := s.draws + 1 })

end Sys2Proof.Machine
end

