-- ==== Sys2Proof/Machine/Operands.lean ====
section
/-! DEFINITION. The operand forms (R74 to R76): register direct is `State.reg`; the immediates are
fields of `Instr`; here stand the effective address, the register block and the derived operands. -/

namespace Sys2Proof.Machine

/-- The effective address `I + offset`, an unbounded natural (R54, R76). -/
def State.indexAddr (s : State) (offset : Nat) : Nat := s.i.toNat + offset

/-- The registers `V0`, ..., `Vx` in increasing order (R144, R145). -/
def regBlock (x : RegIdx) : List RegIdx :=
  ([0, 1, 2, 3, 4, 5, 6, 7, 8, 9, 10, 11, 12, 13, 14, 15] : List RegIdx).take (x.val + 1)

/-- The contents of `V0`, ..., `Vx` (R144). -/
def State.regBytes (s : State) (x : RegIdx) : List Byte := (regBlock x).map s.reg

/-- The decimal digits hundreds, tens, units of a byte (R143). -/
def bcdDigits (b : Byte) : List Byte :=
  [BitVec.ofNat 8 (b.toNat / 100), BitVec.ofNat 8 (b.toNat / 10 % 10), BitVec.ofNat 8 (b.toNat % 10)]

/-- `V0` as a 16-bit addend of `Bnnn`, `Vx` of `Fx1E` (R109, R141): zeros above (R12). -/
def zext16 (b : Byte) : Word := b.setWidth 16

/-- The key named by a register, when its value is one: 0..15 (R188). -/
def keyOf (b : Byte) : Except Fault KeyIdx :=
  if h : b.toNat < 16 then .ok ⟨b.toNat, h⟩ else .error (.keyIndexUndefined b)

end Sys2Proof.Machine
end

