-- ==== Sys2Proof/Machine/ControlFlow.lean ====
section
/-! DEFINITION. The control flow instructions (40_control_flow.md). `PC` already holds `A + 2` (R25). -/

namespace Sys2Proof.Machine

/-- `00EE` (R101). -/
def execRet (s : State) : Host.Outcome State Fault Refusal :=
  match pop s with
  | .error f => .next (s.raise f)
  | .ok (w, s') => .next (s'.setPc w)

/-- `1nnn` (R102). -/
def execJp (nnn : Word) (s : State) : Host.Outcome State Fault Refusal := .next (s.setPc nnn)

/-- `2nnn` (R103). -/
def execCall (nnn : Word) (s : State) : Host.Outcome State Fault Refusal :=
  match push s s.pc with
  | .error f => .next (s.raise f)
  | .ok s' => .next (s'.setPc nnn)

/-- `Skip()` when the condition holds (R104). -/
def State.skipIf (s : State) (c : Bool) : State := if c then s.skip else s

/-- `3xkk` (R105). -/
def execSeImm (x : RegIdx) (kk : Byte) (s : State) : Host.Outcome State Fault Refusal :=
  .next (s.skipIf (s.reg x == kk))

/-- `4xkk` (R106). -/
def execSneImm (x : RegIdx) (kk : Byte) (s : State) : Host.Outcome State Fault Refusal :=
  .next (s.skipIf (s.reg x != kk))

/-- `5xy0` (R107). -/
def execSeReg (x y : RegIdx) (s : State) : Host.Outcome State Fault Refusal :=
  .next (s.skipIf (s.reg x == s.reg y))

/-- `9xy0` (R108). -/
def execSneReg (x y : RegIdx) (s : State) : Host.Outcome State Fault Refusal :=
  .next (s.skipIf (s.reg x != s.reg y))

/-- `Bnnn` (R109): always `V0`; modulo 65536. -/
def execJpV0 (nnn : Word) (s : State) : Host.Outcome State Fault Refusal :=
  .next (s.setPc (nnn + zext16 (s.reg 0)))

end Sys2Proof.Machine
end

