-- ==== Sys2Proof/Machine/Flags.lean ====
section
/-! DEFINITION. The flag computations: `VF` as carry, not-borrow, bit shifted out and collision
(R21, R22, R120, R127 to R131, R164), and the two orders of the flag write. -/

namespace Sys2Proof.Machine

/-- The register `VF` (R21). -/
def vf : RegIdx := 15

/-- A condition as the flag byte: 1 or 0 (R21, D7). -/
def flagByte (b : Bool) : Byte := if b then 1 else 0

/-- Carry out of bit 7: the 9-bit sum exceeded 255 (R127). -/
def carryFlag (a b : Byte) : Byte := flagByte (decide (a.toNat + b.toNat > 255))

/-- Not-borrow of `a - b`: 1 when `a >= b` (R128, R130). -/
def notBorrowFlag (a b : Byte) : Byte := flagByte (decide (a.toNat ≥ b.toNat))

/-- The bit a right shift takes out: bit 0 (R129). -/
def shrFlag (a : Byte) : Byte := a &&& 1

/-- The bit a left shift takes out: bit 7 (R131). -/
def shlFlag (a : Byte) : Byte := (a >>> 7) &&& 1

/-- The two writes of a flag-setting instruction in the order `VF_ORDER` fixes (R120). `flag` and
`result` are computed from a state's registers; under `asWritten` the result is computed after the
flag write, under `flagLast` both come from the old registers. -/
def State.writeFlagged (s : State) (x : RegIdx) (flag result : State → Byte) : State :=
  match s.vfOrder with
  | .asWritten => let s1 := s.setReg vf (flag s); s1.setReg x (result s1)
  | .flagLast => (s.setReg x (result s)).setReg vf (flag s)

end Sys2Proof.Machine
end

