-- ==== Sys2Proof/Machine/Graphics.lean ====
section
/-! DEFINITION. The graphics instructions (43_graphics.md). -/

namespace Sys2Proof.Machine

/-- `00E0` (R163). -/
def execCls (s : State) : Host.Outcome State Fault Refusal := .next (s.setFb Framebuffer.clear)

/-- `Dxyn` (R164): all bytes are read before any pixel changes; `VF` is written last. -/
def execDrw (x y : RegIdx) (n : Nat) (s : State) : Host.Outcome State Fault Refusal :=
  match readBytes s.mem (s.indexAddr 0) n with
  | .error f => .next (s.raise f)
  | .ok bytes =>
    let drawn := blit s.fb (s.reg x).toNat (s.reg y).toNat bytes
    .next ((s.setFb drawn.2).setReg vf (flagByte drawn.1))

end Sys2Proof.Machine
end

