-- ==== Sys2Proof/Machine/IndexMemory.lean ====
section
/-! DEFINITION. The index register and memory instructions (42_index_memory.md). -/

namespace Sys2Proof.Machine

/-- `Annn` (R140). -/
def execLdI (nnn : Word) (s : State) : Host.Outcome State Fault Refusal := .next (s.setI nnn)

/-- `Fx1E` (R141): modulo 65536, no flag. -/
def execAddI (x : RegIdx) (s : State) : Host.Outcome State Fault Refusal :=
  .next (s.setI (s.i + zext16 (s.reg x)))

/-- `Fx29` (R142): the whole byte is multiplied. -/
def execLdF (x : RegIdx) (s : State) : Host.Outcome State Fault Refusal :=
  .next (s.setI (BitVec.ofNat 16 ((s.reg x).toNat * Config.glyphBytes)))

/-- `Fx33` (R143). -/
def execLdB (x : RegIdx) (s : State) : Host.Outcome State Fault Refusal :=
  .next (storeBytes (s.indexAddr 0) (bcdDigits (s.reg x)) s)

/-- `Fx55` (R144): `I` is unchanged. -/
def execLdMemVx (x : RegIdx) (s : State) : Host.Outcome State Fault Refusal :=
  .next (storeBytes (s.indexAddr 0) (s.regBytes x) s)

/-- `Fx65` (R145): `I` is unchanged. -/
def execLdVxMem (x : RegIdx) (s : State) : Host.Outcome State Fault Refusal :=
  .next (loadRegs (s.indexAddr 0) (regBlock x) s)

end Sys2Proof.Machine
end

