-- ==== Sys2Proof/Machine/RandomKeysTimers.lean ====
section
/-! DEFINITION. The random, keypad and timer instructions (44_random_keys_timers.md). -/

namespace Sys2Proof.Machine

/-- `Cxkk` (R181): bitwise AND with the drawn byte. -/
def execRnd (x : RegIdx) (kk : Byte) (s : State) : Host.Outcome State Fault Refusal :=
  .next (s.draw.2.setReg x (s.draw.1 &&& kk))

/-- `Ex9E` (R182, R188). -/
def execSkp (x : RegIdx) (s : State) : Host.Outcome State Fault Refusal :=
  match keyOf (s.reg x) with
  | .error f => .next (s.raise f)
  | .ok k => .next (s.skipIf (s.isDown k))

/-- `ExA1` (R183, R188). -/
def execSknp (x : RegIdx) (s : State) : Host.Outcome State Fault Refusal :=
  match keyOf (s.reg x) with
  | .error f => .next (s.raise f)
  | .ok k => .next (s.skipIf (!s.isDown k))

/-- `Fx07` (R185). -/
def execLdVxDt (x : RegIdx) (s : State) : Host.Outcome State Fault Refusal :=
  .next (s.setReg x s.dt)

/-- `Fx0A` (R184): execution only enters the wait; the `key_down` event writes `Vx` (R212). -/
def execLdVxK (x : RegIdx) (s : State) : Host.Outcome State Fault Refusal :=
  .next (s.setRun (.waitingKey x))

/-- `Fx15` (R186). -/
def execLdDtVx (x : RegIdx) (s : State) : Host.Outcome State Fault Refusal :=
  .next (s.setDt (s.reg x))

/-- `Fx18` (R187). -/
def execLdStVx (x : RegIdx) (s : State) : Host.Outcome State Fault Refusal :=
  .next (s.setSt (s.reg x))

end Sys2Proof.Machine
end

