-- ==== Sys2Proof/Machine/RegisterAlu.lean ====
section
/-! DEFINITION. The register load and arithmetic/logic instructions (41_register_alu.md). -/

namespace Sys2Proof.Machine

/-- `6xkk` (R121). -/
def execLdImm (x : RegIdx) (kk : Byte) (s : State) : Host.Outcome State Fault Refusal :=
  .next (s.setReg x kk)

/-- `7xkk` (R122): no flag. -/
def execAddImm (x : RegIdx) (kk : Byte) (s : State) : Host.Outcome State Fault Refusal :=
  .next (s.setReg x (s.reg x + kk))

/-- `8xy0` (R123). -/
def execLdReg (x y : RegIdx) (s : State) : Host.Outcome State Fault Refusal :=
  .next (s.setReg x (s.reg y))

/-- `8xy1` (R124). -/
def execOrReg (x y : RegIdx) (s : State) : Host.Outcome State Fault Refusal :=
  .next (s.setReg x (s.reg x ||| s.reg y))

/-- `8xy2` (R125). -/
def execAndReg (x y : RegIdx) (s : State) : Host.Outcome State Fault Refusal :=
  .next (s.setReg x (s.reg x &&& s.reg y))

/-- `8xy3` (R126). -/
def execXorReg (x y : RegIdx) (s : State) : Host.Outcome State Fault Refusal :=
  .next (s.setReg x (s.reg x ^^^ s.reg y))

/-- `8xy4` (R127): the sum is read before any write, and `VF` is written last in both orders. -/
def execAddReg (x y : RegIdx) (s : State) : Host.Outcome State Fault Refusal :=
  .next ((s.setReg x (s.reg x + s.reg y)).setReg vf (carryFlag (s.reg x) (s.reg y)))

/-- `8xy5` (R128). -/
def execSub (x y : RegIdx) (s : State) : Host.Outcome State Fault Refusal :=
  .next (s.writeFlagged x (fun t => notBorrowFlag (t.reg x) (t.reg y)) (fun t => t.reg x - t.reg y))

/-- `8xy6` (R129): `y` is not used. -/
def execShr (x _y : RegIdx) (s : State) : Host.Outcome State Fault Refusal :=
  .next (s.writeFlagged x (fun t => shrFlag (t.reg x)) (fun t => t.reg x >>> 1))

/-- `8xy7` (R130). -/
def execSubn (x y : RegIdx) (s : State) : Host.Outcome State Fault Refusal :=
  .next (s.writeFlagged x (fun t => notBorrowFlag (t.reg y) (t.reg x)) (fun t => t.reg y - t.reg x))

/-- `8xyE` (R131): `y` is not used. -/
def execShl (x _y : RegIdx) (s : State) : Host.Outcome State Fault Refusal :=
  .next (s.writeFlagged x (fun t => shlFlag (t.reg x)) (fun t => t.reg x <<< 1))

end Sys2Proof.Machine
end

