-- ==== Sys2Proof/Machine/Ports.lean ====
section
/-! DEFINITION. The block's ports (R8): the environment's events (R206, R212 to R217), the outputs, and
construction and load (R41, R240 to R243). -/

namespace Sys2Proof.Machine

/-! ### Events -/

/-- `Tick()` in a machine that is not faulted (R215): each nonzero timer goes down by 1. -/
def State.tick (s : State) : State :=
  { s with dt := if s.dt = 0 then 0 else s.dt - 1, st := if s.st = 0 then 0 else s.st - 1 }

/-- `KeyDown(k)` in a machine that is not faulted (R212): the key is down, and a pending `Fx0A`
completes. -/
def State.keyDown (s : State) (k : KeyIdx) : State :=
  match s.run with
  | .waitingKey x => ((s.setKey k true).setReg x (BitVec.ofNat 8 k.val)).setRun .running
  | .running => s.setKey k true
  | .faulted _ => s.setKey k true

/-- `KeyUp(k)` in a machine that is not faulted (R213). -/
def State.keyUp (s : State) (k : KeyIdx) : State := s.setKey k false

/-- One event; a faulted machine ignores it (R201). -/
def State.applyEvent (s : State) (e : Event) : State :=
  match s.run with
  | .faulted _ => s
  | .running | .waitingKey _ =>
    match e with
    | .tick => s.tick
    | .keyDown k => s.keyDown k
    | .keyUp k => s.keyUp k

/-- Several events, one after another (R6, R206). -/
def State.applyEvents (s : State) (es : List Event) : State := es.foldl State.applyEvent s

/-- Take the events due before the next instruction step off the schedule and apply them, in order
(R6, R206) [log 4]. -/
def State.deliver (s : State) : State :=
  match s.schedule with
  | [] => s
  | es :: rest => ({ s with schedule := rest } : State).applyEvents es

/-! ### Outputs -/

/-- The output `pixel(x, y)` (R8, R161). -/
def State.pixel (s : State) (x y : Nat) : Bool := s.fb.isSet x y

/-- The output `sound_active` (R217). -/
def State.soundActive (s : State) : Bool := s.st != 0

/-- The output `status` (R8). -/
def State.status (s : State) : RunState := s.run

/-! ### Construction and load -/

/-- Construction with the parameters `FONT_GLYPHS` and `VF_ORDER` (R9, R40, R41, R240). -/
def State.construct (font : Vector Byte 80) (order : VfOrder) : State :=
  { State.reset with mem := Memory.putBytes [] 0 font.toList, vfOrder := order }

/-- `load(image)` (R242, R243): an image that does not fit is refused by the loader; otherwise it is
placed at 0x200 and `PC <- 0x200` [log 10]. -/
def State.load (s : State) (image : List Byte) : Option State :=
  if image.length ≤ Config.maxProgram then
    some { s with
      mem := s.mem.putBytes Config.programBase image
      pc := BitVec.ofNat 16 Config.programBase }
  else none

/-- The launch state (R243, R244): construction, then the load. -/
def State.launch (font : Vector Byte 80) (order : VfOrder) (image : List Byte) : Option State :=
  (State.construct font order).load image

end Sys2Proof.Machine
end

