-- ==== Sys2Proof/Machine/Step.lean ====
section
/-! DEFINITION. One step of the machine: the events that are due, then one instruction cycle (R5, R6,
R70, R206). -/

namespace Sys2Proof.Machine

/-- `Cycle()` (R70): fetch, advance, execute. A fetch fault leaves `PC` unchanged; an unknown opcode
does nothing more (R88). -/
def cycle (s : State) : Host.Outcome State Fault Refusal :=
  match fetchWord s.mem s.pc.toNat with
  | .error f => .next (s.raise f)
  | .ok op =>
    match decodeWord op with
    | .instr i => exec i s.advance
    | .unknown _ => .next s.advance
    | .truncated => .next s.advance

/-- One step. The events due are delivered first [log 4]. A running machine performs one cycle; a
machine that waits for a key performs none and waits on (R219) [log 6]; a faulted machine takes no
step (R201): the host outcome is its fault [log 5]. -/
def step (s : State) : Host.Outcome State Fault Refusal :=
  match s.deliver.run with
  | .running => cycle s.deliver
  | .waitingKey _ => .next s.deliver
  | .faulted f => .fault f

/-- The address the next fetch can use: `PC` where both its bytes exist, else the program base. -/
def State.fetchAddr (s : State) : Nat :=
  if s.pc.toNat + 1 < Config.memSize then s.pc.toNat else Config.programBase

/-- `s` with the instruction word `w` (bits above `nbits` zero) stored, high byte first, where the
next fetch reads; a state that would not fetch there is set to `Running` with `PC` in memory
[log 10]. -/
def State.withFetchWord (s : State) (nbits w : Nat) : State :=
  let op : Word := BitVec.ofNat 16 (w % 2 ^ nbits)
  let a := s.fetchAddr
  { s with
    mem := (s.mem.put a (bytesOf op).1).put (a + 1) (bytesOf op).2
    pc := BitVec.ofNat 16 a
    run := .running }

end Sys2Proof.Machine
end

