-- ==== Sys2Proof/Safety.lean ====
section
/-! DEFINITION. The terms the claims use: which fault an instruction raises (R202), which registers it
writes (R23), the end of a run (R254), and the invariants of the machine. -/

namespace Sys2Proof.Machine

/-- The first address of `n` consecutive ones from `a` on that is outside memory, where one is
(R205). -/
def firstOut (a n : Nat) : Option Nat :=
  if n = 0 then none
  else if a + n ≤ Config.memSize then none
  else some (max a Config.memSize)

/-- The fault an instruction raises in a state, by R200 and R202: written from those rules, not from
the meanings. -/
def faultOf (i : Instr) (s : State) : Option Fault :=
  match i with
  | .ret => if s.sp.val = 0 then some (.outOfBounds .stackPop 0) else none
  | .call _ => if s.sp.val = 16 then some (.outOfBounds .stackPush 16) else none
  | .drw _ _ n => (firstOut s.i.toNat n).map (.outOfBounds .read)
  | .ldVxMem x => (firstOut s.i.toNat (x.val + 1)).map (.outOfBounds .read)
  | .ldB _ => (firstOut s.i.toNat 3).map (.outOfBounds .write)
  | .ldMemVx x => (firstOut s.i.toNat (x.val + 1)).map (.outOfBounds .write)
  | .skp x => if (s.reg x).toNat > 0xF then some (.keyIndexUndefined (s.reg x)) else none
  | .sknp x => if (s.reg x).toNat > 0xF then some (.keyIndexUndefined (s.reg x)) else none
  | .cls | .jp _ | .seImm _ _ | .sneImm _ _ | .seReg _ _ | .ldImm _ _ | .addImm _ _ | .ldReg _ _
  | .orReg _ _ | .andReg _ _ | .xorReg _ _ | .addReg _ _ | .sub _ _ | .shr _ _ | .subn _ _
  | .shl _ _ | .sneReg _ _ | .ldI _ | .jpV0 _ | .rnd _ _ | .ldVxDt _ | .ldVxK _ | .ldDtVx _
  | .ldStVx _ | .addI _ | .ldF _ => none

/-- The registers an instruction writes: the column "V written" of R23. (`Fx0A` writes `Vx` on the
`key_down` event, not when it executes.) -/
def regsWritten : Instr → List RegIdx
  | .ldImm x _ | .addImm x _ | .ldReg x _ | .orReg x _ | .andReg x _ | .xorReg x _ => [x]
  | .addReg x _ | .sub x _ | .subn x _ | .shr x _ | .shl x _ => [x, vf]
  | .rnd x _ | .ldVxDt x => [x]
  | .drw _ _ _ => [vf]
  | .ldVxMem x => regBlock x
  | .cls | .ret | .jp _ | .call _ | .seImm _ _ | .sneImm _ _ | .seReg _ _ | .sneReg _ _ | .ldI _
  | .jpV0 _ | .skp _ | .sknp _ | .ldVxK _ | .ldDtVx _ | .ldStVx _ | .addI _ | .ldF _ | .ldB _
  | .ldMemVx _ => []

/-- The instructions that write `PC` beyond the fetch advance: the column "PC" of R23. -/
def writesPc : Instr → Bool
  | .ret | .jp _ | .call _ | .seImm _ _ | .sneImm _ _ | .seReg _ _ | .sneReg _ _ | .jpV0 _ | .skp _
  | .sknp _ => true
  | .cls | .ldImm _ _ | .addImm _ _ | .ldReg _ _ | .orReg _ _ | .andReg _ _ | .xorReg _ _
  | .addReg _ _ | .sub _ _ | .shr _ _ | .subn _ _ | .shl _ _ | .ldI _ | .rnd _ _ | .drw _ _ _
  | .ldVxDt _ | .ldVxK _ | .ldDtVx _ | .ldStVx _ | .addI _ | .ldF _ | .ldB _ | .ldMemVx _
  | .ldVxMem _ => false

/-- The run has ended for observation (R254): the machine is running and the word at `PC` is a jump
to `PC`. -/
def State.ended (s : State) : Bool :=
  match s.run, fetchWord s.mem s.pc.toNat with
  | .running, .ok op => decide (decodeWord op = .instr (.jp s.pc))
  | .running, .error _ => false
  | .waitingKey _, _ => false
  | .faulted _, _ => false

/-- No fault has been raised: what a safe run keeps (R201, R247). -/
def State.safe (s : State) : Bool :=
  match s.run with
  | .running => true
  | .waitingKey _ => true
  | .faulted _ => false

/-- The invariant of memory: its canonical form, every listed address inside 0..4095 (R35). -/
def State.memCanonical (s : State) : Bool := s.mem.wf

/-- The invariant of the addresses the block jumps to (R27): `PC` at most 0x10FE and every stack slot
at most 0x1000, so no write of `PC` ever wraps. -/
abbrev State.PcBounded (s : State) : Prop :=
  s.pc.toNat ≤ 0x10FE ∧ ∀ j : Fin 16, (s.stack.get j).toNat ≤ 0x1000

end Sys2Proof.Machine
end

