-- ==== Sys2Proof/Certificates/Slice0/Obligations.lean ====
section
/-! DEFINITION. The statements for the provers. Arithmetic is on naturals, as in the spec's pseudocode
(R12). `exec i s` is `Execute` of R71: `PC` of `s` already holds the instruction's address plus 2
(R25). A statement about every state covers every environment: `schedule`, `rand`, `vfOrder` are fields.
The model's own choices a statement rests on are named in it by their assumption log entry. Where a
statement says what else a faulting instruction leaves, it says what that instruction's own rule says
(assumption log 12). -/

open Sys2Proof Sys2Proof.Machine

/-! ### Encoding -/

/-- R72, R74, R80: the two bytes of a well-formed instruction decode to it, whatever follows, and the
decoder consumes exactly those two. -/
def Obligations.DecodeOfEncodeGivesTheInstruction : Prop :=
  ∀ (i : Instr) (rest : List Byte), WellFormed i →
    decodeBytes (encodeBytes i ++ rest) = (.instr i, rest)

/-- R73, R75: a word that decodes to an instruction is that instruction's encoding, and the
instruction is well-formed: no two words mean one instruction. -/
def Obligations.EncodeOfDecodeGivesTheWord : Prop :=
  ∀ (op : Word) (i : Instr), decodeWord op = .instr i → WellFormed i ∧ encode i = op

/-- R71, R80: the decoder (the switch of R81) answers an instruction exactly when one row of the opcode
map matches, and it is that row's; otherwise no row matches. -/
def Obligations.DecoderSelectsTheOneMatchingRow : Prop :=
  ∀ op : Word,
    (∀ i, decodeWord op = .instr i →
      (opcodeTable.filter (rowMatches op)).map OpcodeRow.mnemonic = [mnemonicOf i]) ∧
    ((∀ i, decodeWord op ≠ .instr i) → opcodeTable.filter (rowMatches op) = [])

/-- R89: the unknown words are exactly the listed sets. -/
def Obligations.UnknownWordsAreTheListedSets : Prop :=
  ∀ op : Word, decodeWord op = .unknown op ↔
    (op.toNat ≤ 0x0FFF ∧ op.toNat ≠ 0x00E0 ∧ op.toNat ≠ 0x00EE) ∨
    (op.toNat / 4096 = 0x5 ∧ op.toNat % 16 ≠ 0) ∨
    (op.toNat / 4096 = 0x8 ∧ op.toNat % 16 ∈ [0x8, 0x9, 0xA, 0xB, 0xC, 0xD, 0xF]) ∨
    (op.toNat / 4096 = 0x9 ∧ op.toNat % 16 ≠ 0) ∨
    (op.toNat / 4096 = 0xE ∧ op.toNat % 256 ∉ [0x9E, 0xA1]) ∨
    (op.toNat / 4096 = 0xF ∧
      op.toNat % 256 ∉ [0x07, 0x0A, 0x15, 0x18, 0x1E, 0x29, 0x33, 0x55, 0x65])

/-- R74, R80: words written out bit by bit from the spec's patterns decode to the instructions they
stand for, one of each format. -/
def Obligations.WrittenOutWordsDecode : Prop :=
  decodeWord 0b0000000011101110 = .instr .ret ∧
  decodeWord 0b0010101111001101 = .instr (.call 0xBCD) ∧
  decodeWord 0b0111001000001010 = .instr (.addImm 2 10) ∧
  decodeWord 0b1000000110100111 = .instr (.subn 1 10) ∧
  decodeWord 0b1101000100100101 = .instr (.drw 1 2 5) ∧
  decodeWord 0b1111101101100101 = .instr (.ldVxMem 11) ∧
  decodeWord 0b0101000100100001 = .unknown 0x5121

/-! ### The step -/

/-- R70: a running machine whose two bytes at `PC` are the word of an instruction executes it with `PC`
advanced by 2. That the events due are taken first, by `deliver`, is the model's choice (assumption
log 4). -/
def Obligations.StepExecutesTheFetchedInstruction : Prop :=
  ∀ (s : State) (op : Word) (i : Instr), s.deliver.run = .running → s.pc.toNat + 1 < 4096 →
    op.toNat = (s.mem.get s.pc.toNat).toNat * 256 + (s.mem.get (s.pc.toNat + 1)).toNat →
    decodeWord op = .instr i →
    step s = exec i { s.deliver with pc := BitVec.ofNat 16 ((s.pc.toNat + 2) % 65536) }

/-- R6, R206: the events due before a step are applied one after another, each by `applyEvent`, in
their order, before the fetch, and are then gone. That they stand in a field of State, one list for
each coming step, is the model's choice (assumption log 4). -/
def Obligations.DueEventsAreAppliedInOrder : Prop :=
  (∀ s : State, s.applyEvents [] = s) ∧
  (∀ (s : State) (e : Event) (es : List Event),
    s.applyEvents (e :: es) = (s.applyEvent e).applyEvents es) ∧
  (∀ s : State, s.schedule = [] → s.deliver = s) ∧
  (∀ (s : State) (rest : List (List Event)), s.schedule = [] :: rest →
    s.deliver = { s with schedule := rest }) ∧
  (∀ (s : State) (e : Event) (es : List Event) (rest : List (List Event)),
    s.schedule = (e :: es) :: rest →
    s.deliver = (({ s with schedule := rest } : State).applyEvent e).applyEvents es) ∧
  ∀ (s : State) (es fs : List Event) (rest : List (List Event)), s.schedule = (es ++ fs) :: rest →
    s.deliver = (({ s with schedule := rest } : State).applyEvents es).applyEvents fs

/-- R88: a word that matches no row changes nothing but `PC`, which ends at its address plus 2. (The
events due come first: assumption log 4.) -/
def Obligations.UnknownOpcodeOnlyAdvances : Prop :=
  ∀ (s : State) (op : Word), s.deliver.run = .running → s.pc.toNat + 1 < 4096 →
    op.toNat = (s.mem.get s.pc.toNat).toNat * 256 + (s.mem.get (s.pc.toNat + 1)).toNat →
    (∀ row ∈ opcodeTable, op &&& row.mask ≠ row.fixed) →
    step s = .next { s.deliver with pc := BitVec.ofNat 16 ((s.pc.toNat + 2) % 65536) }

/-- R52: a fetch with either byte at 4096 or above faults and changes nothing else. The model's own:
that the faulted state is a next state of the step (assumption log 5), and what it holds beside `RUN`
(assumption log 12; R203 says no claim may read it). -/
def Obligations.FetchOutsideMemoryFaults : Prop :=
  ∀ s : State, s.deliver.run = .running → s.pc.toNat + 1 ≥ 4096 →
    step s = .next { s.deliver with run := .faulted (.outOfBounds .fetch s.pc.toNat) }

/-- R201: raising sets `RUN` and nothing else; a faulted machine takes no step and no event changes
it. That a step requested of it answers the host outcome `fault` is the model's choice (assumption
log 5). -/
def Obligations.FaultIsFinal : Prop :=
  (∀ (s : State) (f : Fault), s.raise f = { s with run := .faulted f }) ∧
  ∀ (s : State) (f : Fault), s.run = .faulted f →
    (∀ es, s.applyEvents es = s) ∧ step s = .fault f

/-- An instruction always answers a next state, and a step does unless the machine is already faulted;
nothing is refused. From R204, that an instruction completes, enters the key wait or faults. The model's
own: that the raising step answers a next state and a step of a faulted machine answers `fault`
(assumption log 5), and that a step asked of a machine waiting for a key answers a next state
(assumption log 6). -/
def Obligations.OnlyAFaultedMachineStops : Prop :=
  (∀ (i : Instr) (s : State), ∃ t, exec i s = .next t) ∧
  ∀ s : State, (∃ t, step s = .next t) ∨ ∃ f, s.run = .faulted f ∧ step s = .fault f

/-- R202: which instruction raises which fault (`faultOf`), and nothing else can; a step's fault is the
fetch's or its instruction's. (Faults are next states: the model's choice, assumption log 5.) -/
def Obligations.InstructionsRaiseExactlyTheirFaults : Prop :=
  (∀ (i : Instr) (s : State) (f : Fault), faultOf i s = some f →
    ∃ t, exec i s = .next t ∧ t.run = .faulted f) ∧
  (∀ (i : Instr) (s : State), s.run = .running → faultOf i s = none →
    ∃ t, exec i s = .next t ∧ ∀ f, t.run ≠ .faulted f) ∧
  ∀ (s t : State) (f : Fault), step s = .next t → t.run = .faulted f →
    (s.pc.toNat + 1 ≥ 4096 ∧ f = .outOfBounds .fetch s.pc.toNat) ∨
    ∃ i, decodeWord (wordOf (s.mem.get s.pc.toNat) (s.mem.get (s.pc.toNat + 1))) = .instr i ∧
      faultOf i s.deliver.advance = some f

/-- R219: the wait is entered by `Fx0A` alone; without a `key_down` it goes on, and only ticks and key
releases change anything. That a step requested of a waiting machine answers a next state is the
model's choice (assumption log 6), and so is the schedule of events as a field (assumption log 4). -/
def Obligations.KeyWaitHoldsUntilKeyDown : Prop :=
  (∀ (i : Instr) (s t : State) (x : RegIdx), s.run = .running → exec i s = .next t →
    t.run = .waitingKey x → i = .ldVxK x) ∧
  (∀ (s : State) (x : RegIdx), s.run = .waitingKey x → s.schedule = [] → step s = .next s) ∧
  ∀ (s : State) (x : RegIdx) (es : List Event) (rest : List (List Event)), s.run = .waitingKey x →
    s.schedule = es :: rest → (∀ k, .keyDown k ∉ es) →
    ∃ t, step s = .next t ∧
      t = { s with dt := t.dt, st := t.st, key := t.key, schedule := rest }

/-! ### Events -/

/-- R212: a `key_down` sets its key, and completes a pending `Fx0A`. -/
def Obligations.KeyDownSetsKeyAndEndsWait : Prop :=
  ∀ (s : State) (k : KeyIdx),
    (s.run = .running → ∃ t, s.applyEvent (.keyDown k) = t ∧ t = { s with key := t.key } ∧
      ∀ j, t.isDown j = if j = k then true else s.isDown j) ∧
    (∀ x, s.run = .waitingKey x → ∃ t, s.applyEvent (.keyDown k) = t ∧
      t = { s with key := t.key, v := t.v, run := .running } ∧
      (∀ j, t.isDown j = if j = k then true else s.isDown j) ∧
      (t.reg x).toNat = k.val ∧ ∀ r, r ≠ x → t.reg r = s.reg r)

/-- R213: a `key_up` clears its key and never completes a key wait. -/
def Obligations.KeyUpClearsItsKeyOnly : Prop :=
  ∀ (s : State) (k : KeyIdx), (∀ f, s.run ≠ .faulted f) →
    ∃ t, s.applyEvent (.keyUp k) = t ∧ t = { s with key := t.key } ∧
      ∀ j, t.isDown j = if j = k then false else s.isDown j

/-- R215: `n` ticks take `n` off each timer, which stays at 0 once there, and change nothing else; no
instruction but `Fx15` and `Fx18` changes a timer. -/
def Obligations.TicksCountTimersDownToZero : Prop :=
  (∀ (n : Nat) (s : State), (∀ f, s.run ≠ .faulted f) →
    ∃ t, s.applyEvents (List.replicate n .tick) = t ∧ t = { s with dt := t.dt, st := t.st } ∧
      t.dt.toNat = s.dt.toNat - n ∧ t.st.toNat = s.st.toNat - n) ∧
  ∀ (i : Instr) (s t : State), exec i s = .next t →
    ((∀ x, i ≠ .ldDtVx x) → t.dt = s.dt) ∧ ((∀ x, i ≠ .ldStVx x) → t.st = s.st)

/-- R207: events change the keypad, the timers and, only where a `key_down` completes a wait, the one
register that waits; never `PC`, `SP`, the stack, `I`, memory or the framebuffer. -/
def Obligations.EventsTouchOnlyKeysTimersAndTheWaitingRegister : Prop :=
  ∀ (s : State) (es : List Event), ∃ t, s.applyEvents es = t ∧
    t = { s with v := t.v, dt := t.dt, st := t.st, key := t.key, run := t.run } ∧
    (∀ r, s.run ≠ .waitingKey r → t.reg r = s.reg r) ∧
    (t.run = s.run ∨ ((∃ x, s.run = .waitingKey x) ∧ (∃ k, .keyDown k ∈ es) ∧ t.run = .running))

/-! ### Control flow -/

/-- R101: RET takes the top slot off the stack into `PC`; on an empty stack it faults. The model's own in
the empty-stack clause: that the faulted state is a next state (assumption log 5), and what it holds
beside `RUN` (assumption log 12; R203 says no claim may read it). -/
def Obligations.ReturnPopsIntoPc : Prop :=
  ∀ s : State,
    (∀ j : Fin 16, s.sp.val = j.val + 1 →
      exec .ret s = .next { s with sp := j.castSucc, pc := s.stack.get j }) ∧
    (s.sp.val = 0 → exec .ret s = .next { s with run := .faulted (.outOfBounds .stackPop 0) })

/-- R103: CALL pushes the advanced `PC` and jumps; on a full stack it faults with nothing written. The
model's own in the full-stack clause: that the faulted state is a next state (assumption log 5), and
what it holds beside `RUN` (assumption log 12; R203 says no claim may read it). -/
def Obligations.CallPushesPcAndJumps : Prop :=
  ∀ (nnn : Word) (s : State),
    (∀ j : Fin 16, s.sp.val = j.val → ∃ t, exec (.call nnn) s = .next t ∧
      t = { s with sp := t.sp, stack := t.stack, pc := nnn } ∧ t.sp.val = j.val + 1 ∧
      ∀ q : Fin 16, t.stack.get q = if q = j then s.pc else s.stack.get q) ∧
    (s.sp.val = 16 →
      exec (.call nnn) s = .next { s with run := .faulted (.outOfBounds .stackPush 16) })

/-- R32: a push then a pop gives the value back and restores `SP`; two pushes come back in reverse
order. -/
def Obligations.PushThenPopGivesBack : Prop :=
  (∀ (s : State) (a : Word), s.sp.val < 16 →
    ∃ s1 s2, push s a = .ok s1 ∧ pop s1 = .ok (a, s2) ∧ s2.sp = s.sp) ∧
  ∀ (s : State) (a b : Word), s.sp.val ≤ 14 →
    ∃ s1 s2 s3 s4, push s a = .ok s1 ∧ push s1 b = .ok s2 ∧ pop s2 = .ok (b, s3) ∧ pop s3 = .ok (a, s4)

/-- R100, R102, R109: JP and JP_V0 write an absolute target, unchecked, and nothing else; the sum with
`V0` is not reduced to 12 bits and at most 0x10FE for a 12-bit `nnn`. -/
def Obligations.JumpsWriteAbsoluteTargets : Prop :=
  ∀ (nnn : Word) (s : State),
    exec (.jp nnn) s = .next { s with pc := nnn } ∧
    ∃ t, exec (.jpV0 nnn) s = .next t ∧ t = { s with pc := t.pc } ∧
      t.pc.toNat = (nnn.toNat + (s.reg 0).toNat) % 65536 ∧
      (nnn.toNat < 4096 → t.pc.toNat = nnn.toNat + (s.reg 0).toNat ∧ t.pc.toNat ≤ 0x10FE)

/-- R104, R105, R106: SE_IMM skips 2 more bytes exactly when `Vx = kk`, SNE_IMM exactly when not; nothing
else changes. -/
def Obligations.ImmediateComparisonsSkip : Prop :=
  ∀ (x : RegIdx) (kk : Byte) (s : State),
    exec (.seImm x kk) s = .next { s with
      pc := BitVec.ofNat 16 (s.pc.toNat + if (s.reg x).toNat = kk.toNat then 2 else 0) } ∧
    exec (.sneImm x kk) s = .next { s with
      pc := BitVec.ofNat 16 (s.pc.toNat + if (s.reg x).toNat = kk.toNat then 0 else 2) }

/-- R104, R107, R108: SE_REG skips exactly when the registers are equal, SNE_REG exactly when they
differ; nothing else changes. -/
def Obligations.RegisterComparisonsSkip : Prop :=
  ∀ (x y : RegIdx) (s : State),
    exec (.seReg x y) s = .next { s with
      pc := BitVec.ofNat 16 (s.pc.toNat + if (s.reg x).toNat = (s.reg y).toNat then 2 else 0) } ∧
    exec (.sneReg x y) s = .next { s with
      pc := BitVec.ofNat 16 (s.pc.toNat + if (s.reg x).toNat = (s.reg y).toNat then 0 else 2) }

/-! ### Register loads and arithmetic -/

/-- R121, R122: LD_IMM and ADD_IMM write `Vx` and nothing else; the sum is modulo 256, with no flag. -/
def Obligations.ImmediateLoadAndAdd : Prop :=
  ∀ (x : RegIdx) (kk : Byte) (s : State),
    (∃ t, exec (.ldImm x kk) s = .next t ∧ t = { s with v := t.v } ∧
      ∀ r, t.reg r = if r = x then kk else s.reg r) ∧
    ∃ t, exec (.addImm x kk) s = .next t ∧ t = { s with v := t.v } ∧
      (t.reg x).toNat = ((s.reg x).toNat + kk.toNat) % 256 ∧ ∀ r, r ≠ x → t.reg r = s.reg r

/-- R123 to R126: the copy and the three bitwise operations write `Vx` bit by bit and nothing else; `VF`
is no flag of theirs. -/
def Obligations.CopyAndBitwiseLogic : Prop :=
  ∀ (x y : RegIdx) (s : State),
    (∃ t, exec (.ldReg x y) s = .next t ∧ t = { s with v := t.v } ∧
      ∀ r, t.reg r = if r = x then s.reg y else s.reg r) ∧
    (∃ t, exec (.orReg x y) s = .next t ∧ t = { s with v := t.v } ∧
      (∀ j < 8, (t.reg x).getLsbD j = ((s.reg x).getLsbD j || (s.reg y).getLsbD j)) ∧
      ∀ r, r ≠ x → t.reg r = s.reg r) ∧
    (∃ t, exec (.andReg x y) s = .next t ∧ t = { s with v := t.v } ∧
      (∀ j < 8, (t.reg x).getLsbD j = ((s.reg x).getLsbD j && (s.reg y).getLsbD j)) ∧
      ∀ r, r ≠ x → t.reg r = s.reg r) ∧
    ∃ t, exec (.xorReg x y) s = .next t ∧ t = { s with v := t.v } ∧
      (∀ j < 8, (t.reg x).getLsbD j = ((s.reg x).getLsbD j ^^ (s.reg y).getLsbD j)) ∧
      ∀ r, r ≠ x → t.reg r = s.reg r

/-- R127: ADD_REG writes the sum modulo 256 and then the carry into `VF`, from the old operands, in both
readings of `VF_ORDER`; the carry wins when `x = F`. -/
def Obligations.AddSetsCarry : Prop :=
  ∀ (x y : RegIdx) (s : State), ∃ t, exec (.addReg x y) s = .next t ∧ t = { s with v := t.v } ∧
    (t.reg 15).toNat = (if (s.reg x).toNat + (s.reg y).toNat > 255 then 1 else 0) ∧
    (x ≠ 15 → (t.reg x).toNat = ((s.reg x).toNat + (s.reg y).toNat) % 256) ∧
    ∀ r, r ≠ x → r ≠ 15 → t.reg r = s.reg r

/-- R128: SUB, with the aliasing cases of both readings of `VF_ORDER`. -/
def Obligations.SubSetsNotBorrow : Prop :=
  ∀ (x y : RegIdx) (s : State), ∃ t, exec (.sub x y) s = .next t ∧ t = { s with v := t.v } ∧
    (∀ r, r ≠ x → r ≠ 15 → t.reg r = s.reg r) ∧
    ∀ a b f : Nat, a = (s.reg x).toNat → b = (s.reg y).toNat → f = (if a ≥ b then 1 else 0) →
      (x ≠ 15 → y ≠ 15 → (t.reg x).toNat = (a + 256 - b) % 256 ∧ (t.reg 15).toNat = f) ∧
      (s.vfOrder = .asWritten →
        (x = 15 → y ≠ 15 → (t.reg 15).toNat = (f + 256 - b) % 256) ∧
        (x ≠ 15 → y = 15 → (t.reg x).toNat = (a + 256 - f) % 256 ∧ (t.reg 15).toNat = f) ∧
        (x = 15 → y = 15 → (t.reg 15).toNat = 0)) ∧
      (s.vfOrder = .flagLast →
        (x = 15 → (t.reg 15).toNat = f) ∧
        (x ≠ 15 → y = 15 → (t.reg x).toNat = (a + 256 - b) % 256 ∧ (t.reg 15).toNat = f))

/-- R130: SUBN, with the aliasing cases of both readings of `VF_ORDER`. -/
def Obligations.SubnSetsNotBorrow : Prop :=
  ∀ (x y : RegIdx) (s : State), ∃ t, exec (.subn x y) s = .next t ∧ t = { s with v := t.v } ∧
    (∀ r, r ≠ x → r ≠ 15 → t.reg r = s.reg r) ∧
    ∀ a b f : Nat, a = (s.reg x).toNat → b = (s.reg y).toNat → f = (if b ≥ a then 1 else 0) →
      (x ≠ 15 → y ≠ 15 → (t.reg x).toNat = (b + 256 - a) % 256 ∧ (t.reg 15).toNat = f) ∧
      (s.vfOrder = .asWritten →
        (x = 15 → y ≠ 15 → (t.reg 15).toNat = (b + 256 - f) % 256) ∧
        (x ≠ 15 → y = 15 → (t.reg x).toNat = (f + 256 - a) % 256 ∧ (t.reg 15).toNat = f) ∧
        (x = 15 → y = 15 → (t.reg 15).toNat = 0)) ∧
      (s.vfOrder = .flagLast →
        (x = 15 → (t.reg 15).toNat = f) ∧
        (x ≠ 15 → y = 15 → (t.reg x).toNat = (b + 256 - a) % 256 ∧ (t.reg 15).toNat = f))

/-- R129, R131: SHR and SHL shift `Vx` by one, logically, the bit shifted out in `VF`; `y` is ignored;
with the aliasing case of both readings of `VF_ORDER`. -/
def Obligations.ShiftsMoveTheLostBitToVf : Prop :=
  ∀ (x y : RegIdx) (s : State),
    (∃ t, exec (.shr x y) s = .next t ∧ t = { s with v := t.v } ∧
      (∀ r, r ≠ x → r ≠ 15 → t.reg r = s.reg r) ∧
      (x ≠ 15 → (t.reg x).toNat = (s.reg x).toNat / 2 ∧ (t.reg 15).toNat = (s.reg x).toNat % 2) ∧
      (x = 15 → s.vfOrder = .asWritten → (t.reg 15).toNat = 0) ∧
      (x = 15 → s.vfOrder = .flagLast → (t.reg 15).toNat = (s.reg x).toNat % 2)) ∧
    ∃ t, exec (.shl x y) s = .next t ∧ t = { s with v := t.v } ∧
      (∀ r, r ≠ x → r ≠ 15 → t.reg r = s.reg r) ∧
      (x ≠ 15 → (t.reg x).toNat = (s.reg x).toNat * 2 % 256 ∧
        (t.reg 15).toNat = (s.reg x).toNat / 128) ∧
      (x = 15 → s.vfOrder = .asWritten → (t.reg 15).toNat = 2 * ((s.reg x).toNat / 128)) ∧
      (x = 15 → s.vfOrder = .flagLast → (t.reg 15).toNat = (s.reg x).toNat / 128)

/-- R120: the two readings of `VF_ORDER` give the same result for every instruction, unless it is SUB,
SHR, SUBN or SHL with `x = F` or `y = F`. (The parameter is a field of State: assumption log 1.) -/
def Obligations.VfOrderMattersOnlyWhenVfIsAnOperand : Prop :=
  ∀ (i : Instr) (s t u : State),
    (∀ x y, i = .sub x y ∨ i = .shr x y ∨ i = .subn x y ∨ i = .shl x y → x ≠ 15 ∧ y ≠ 15) →
    exec i { s with vfOrder := .asWritten } = .next t →
    exec i { s with vfOrder := .flagLast } = .next u →
    t.vfOrder = .asWritten ∧ u = { t with vfOrder := .flagLast }

/-! ### Index register and memory -/

/-- R140, R141, R142: LD_I, ADD_I (modulo 65536) and LD_F (the whole byte times 5) write `I` and nothing
else; no flag, no fault. -/
def Obligations.IndexRegisterWrites : Prop :=
  ∀ (s : State),
    (∀ nnn : Word, exec (.ldI nnn) s = .next { s with i := nnn }) ∧
    (∀ x : RegIdx, ∃ t, exec (.addI x) s = .next t ∧ t = { s with i := t.i } ∧
      t.i.toNat = (s.i.toNat + (s.reg x).toNat) % 65536) ∧
    ∀ x : RegIdx, ∃ t, exec (.ldF x) s = .next t ∧ t = { s with i := t.i } ∧
      t.i.toNat = (s.reg x).toNat * 5

/-- R143: LD_B stores the three decimal digits at `I`, `I + 1`, `I + 2` and changes no other byte;
where one of them is outside memory it faults there, the digits before it stored. The model's own where it
faults: that the faulted state is a next state (assumption log 5), and what it holds beside `RUN` (assumption
log 12; R203 says no claim may read it). -/
def Obligations.BcdDigitsAreStored : Prop :=
  ∀ (x : RegIdx) (s : State), s.mem.wf = true →
    ∃ t, exec (.ldB x) s = .next t ∧ t = { s with mem := t.mem, run := t.run } ∧
      (s.i.toNat + 2 < 4096 → t.run = s.run) ∧
      (s.i.toNat + 2 ≥ 4096 → t.run = .faulted (.outOfBounds .write (max s.i.toNat 4096))) ∧
      (s.i.toNat < 4096 → (t.mem.get s.i.toNat).toNat = (s.reg x).toNat / 100) ∧
      (s.i.toNat + 1 < 4096 → (t.mem.get (s.i.toNat + 1)).toNat = (s.reg x).toNat / 10 % 10) ∧
      (s.i.toNat + 2 < 4096 → (t.mem.get (s.i.toNat + 2)).toNat = (s.reg x).toNat % 10) ∧
      ∀ a, ¬(s.i.toNat ≤ a ∧ a ≤ s.i.toNat + 2 ∧ a < 4096) → t.mem.get a = s.mem.get a

/-- R144: LD_MEM_VX stores `V0..Vx` at `I..I+x` and changes no other byte, nor `I`; where one of them is
outside memory it faults there, the registers before it stored. The model's own where it
faults: that the faulted state is a next state (assumption log 5), and what it holds beside `RUN` (assumption
log 12; R203 says no claim may read it). -/
def Obligations.RegisterBlockIsStored : Prop :=
  ∀ (x : RegIdx) (s : State), s.mem.wf = true →
    ∃ t, exec (.ldMemVx x) s = .next t ∧ t = { s with mem := t.mem, run := t.run } ∧
      (s.i.toNat + x.val < 4096 → t.run = s.run) ∧
      (s.i.toNat + x.val ≥ 4096 → t.run = .faulted (.outOfBounds .write (max s.i.toNat 4096))) ∧
      (∀ r, r ≤ x → s.i.toNat + r.val < 4096 → t.mem.get (s.i.toNat + r.val) = s.reg r) ∧
      ∀ a, ¬(s.i.toNat ≤ a ∧ a ≤ s.i.toNat + x.val ∧ a < 4096) → t.mem.get a = s.mem.get a

/-- R145: LD_VX_MEM loads `V0..Vx` from `I..I+x` and changes no other register, nor `I`; where one of
the addresses is outside memory it faults there, the registers before it loaded. The model's own where it
faults: that the faulted state is a next state (assumption log 5), and what it holds beside `RUN` (assumption
log 12; R203 says no claim may read it). -/
def Obligations.RegisterBlockIsLoaded : Prop :=
  ∀ (x : RegIdx) (s : State),
    ∃ t, exec (.ldVxMem x) s = .next t ∧ t = { s with v := t.v, run := t.run } ∧
      (s.i.toNat + x.val < 4096 → t.run = s.run) ∧
      (s.i.toNat + x.val ≥ 4096 → t.run = .faulted (.outOfBounds .read (max s.i.toNat 4096))) ∧
      ∀ r, t.reg r =
        if r ≤ x ∧ s.i.toNat + r.val < 4096 then s.mem.get (s.i.toNat + r.val) else s.reg r

/-- R146: stored and loaded back, with any change to the registers (and anything else but `I` and the
bytes at `I..I+x`) in between, `V0..Vx` hold what was stored. -/
def Obligations.StoreThenLoadRestoresRegisters : Prop :=
  ∀ (x : RegIdx) (s : State), s.mem.wf = true → s.i.toNat + x.val < 4096 →
    ∃ t, exec (.ldMemVx x) s = .next t ∧
      ∀ u : State, u.i = s.i →
        (∀ a, s.i.toNat ≤ a → a ≤ s.i.toNat + x.val → u.mem.get a = t.mem.get a) →
        ∃ w, exec (.ldVxMem x) u = .next w ∧ ∀ r, r ≤ x → w.reg r = s.reg r

/-- R64: the bytes an instruction stores at `PC` are what the very next step fetches and executes. -/
def Obligations.StoredBytesAreFetchedNext : Prop :=
  ∀ (x : RegIdx) (i : Instr) (s t : State), s.mem.wf = true → s.run = .running → s.schedule = [] →
    1 ≤ x.val → s.pc = s.i → s.i.toNat + x.val < 4096 → exec (.ldMemVx x) s = .next t →
    decodeWord (wordOf (s.reg 0) (s.reg 1)) = .instr i →
    step t = exec i t.advance

/-! ### Graphics -/

/-- R163, R160: CLS unsets every pixel and changes nothing else. -/
def Obligations.ClearUnsetsEveryPixel : Prop :=
  ∀ s : State, ∃ t, exec .cls s = .next t ∧ t = { s with fb := t.fb } ∧ ∀ x y, t.pixel x y = false

/-- R164 with R162, where the sprite bytes are all in memory: DRW XORs each sprite bit into the pixel under
it, with wraparound, leaves every other pixel alone, and sets `VF` to 1 exactly when a 1 bit lay on a set
pixel; it changes nothing else. Both coordinates are the old register contents. That the collision is
stored as 1 or 0 is the spec's own decision D7, that every byte is read before any pixel changes and
`VF` is written last its decision D29. -/
def Obligations.DrawXorsTheSprite : Prop :=
  ∀ (x y : RegIdx) (n : Nat) (s : State), n < 16 → (n = 0 ∨ s.i.toNat + n ≤ 4096) →
    ∃ t, exec (.drw x y n) s = .next t ∧ t = { s with v := t.v, fb := t.fb } ∧
      (∀ r, r ≠ 15 → t.reg r = s.reg r) ∧
      (∀ row < n, ∀ col < 8,
        t.pixel ((s.reg x).toNat + col) ((s.reg y).toNat + row) =
          (s.pixel ((s.reg x).toNat + col) ((s.reg y).toNat + row) ^^
            (s.mem.get (s.i.toNat + row)).getLsbD (7 - col))) ∧
      (∀ px < 64, ∀ py < 32,
        (∀ row < n, ∀ col < 8, ¬(px = ((s.reg x).toNat + col) % 64 ∧ py = ((s.reg y).toNat + row) % 32)) →
        t.pixel px py = s.pixel px py) ∧
      (t.reg 15 = 0 ∨ t.reg 15 = 1) ∧
      (t.reg 15 = 1 ↔ ∃ row < n, ∃ col < 8,
        (s.mem.get (s.i.toNat + row)).getLsbD (7 - col) = true ∧
        s.pixel ((s.reg x).toNat + col) ((s.reg y).toNat + row) = true)

/-- R164: a DRW that reads outside memory faults at the first such address, with no pixel changed and
`VF` not written. The model's own where it faults:
that the faulted state is a next state (assumption log 5), and what it holds beside `RUN` (assumption
log 12; R203 says no claim may read it). -/
def Obligations.DrawOutsideMemoryFaultsUndrawn : Prop :=
  ∀ (x y : RegIdx) (n : Nat) (s : State), 0 < n → s.i.toNat + n > 4096 →
    exec (.drw x y n) s =
      .next { s with run := .faulted (.outOfBounds .read (max s.i.toNat 4096)) }

/-- R165: the same sprite drawn twice at the same coordinates restores the framebuffer; the first draw
collides exactly when some pixel under a 1 bit was set, the second exactly when one was unset. "The
same coordinates" is a premise: the first draw writes `VF`, which may be a coordinate. -/
def Obligations.DrawingTwiceRestoresTheFramebuffer : Prop :=
  ∀ (x y : RegIdx) (n : Nat) (s t u : State), n < 16 → (n = 0 ∨ s.i.toNat + n ≤ 4096) →
    exec (.drw x y n) s = .next t → t.reg x = s.reg x → t.reg y = s.reg y →
    exec (.drw x y n) t = .next u →
    u.fb = s.fb ∧
    (t.reg 15 = 1 ↔ ∃ row < n, ∃ col < 8,
      (s.mem.get (s.i.toNat + row)).getLsbD (7 - col) = true ∧
      s.pixel ((s.reg x).toNat + col) ((s.reg y).toNat + row) = true) ∧
    (u.reg 15 = 1 ↔ ∃ row < n, ∃ col < 8,
      (s.mem.get (s.i.toNat + row)).getLsbD (7 - col) = true ∧
      s.pixel ((s.reg x).toNat + col) ((s.reg y).toNat + row) = false)

/-! ### Random byte, keypad, timers -/

/-- R180, R181: RND writes the drawn byte AND `kk` into `Vx` and nothing else of the block. With a byte
on the port it is that byte; past the listed inputs it is the free value of the draw's number
(assumption log 3), about which nothing is said. -/
def Obligations.RandomByteIsMasked : Prop :=
  ∀ (x : RegIdx) (kk : Byte) (s : State),
    ∃ t, exec (.rnd x kk) s = .next t ∧ t = { s with v := t.v, rand := t.rand, draws := t.draws } ∧
      (∀ r, r ≠ x → t.reg r = s.reg r) ∧
      (∀ b rest, s.rand = b :: rest → t.rand = rest ∧ t.draws = s.draws ∧
        ∀ j < 8, (t.reg x).getLsbD j = (b.getLsbD j && kk.getLsbD j)) ∧
      (s.rand = [] → t.rand = [] ∧ t.draws = s.draws + 1 ∧
        t.reg x = Config.randomByte s.draws &&& kk) ∧
      ∀ j < 8, kk.getLsbD j = false → (t.reg x).getLsbD j = false

/-- R182, R183, R188: for `Vx <= 0xF`, SKP skips exactly when key `Vx` is down and SKNP exactly when it
is not; for a larger `Vx` both fault, with nothing else changed. That a larger `Vx` faults is the spec's
own decision D5. The model's own there: that the faulted state is a next state (assumption log 5), and
what it holds beside `RUN` (assumption log 12; R203 says no claim may read it). -/
def Obligations.KeySkipsReadTheKeypad : Prop :=
  ∀ (x : RegIdx) (s : State),
    (∀ k : KeyIdx, (s.reg x).toNat = k.val →
      exec (.skp x) s = .next { s with
        pc := BitVec.ofNat 16 (s.pc.toNat + if s.key.getLsbD k.val then 2 else 0) } ∧
      exec (.sknp x) s = .next { s with
        pc := BitVec.ofNat 16 (s.pc.toNat + if s.key.getLsbD k.val then 0 else 2) }) ∧
    ((s.reg x).toNat > 0xF →
      exec (.skp x) s = .next { s with run := .faulted (.keyIndexUndefined (s.reg x)) } ∧
      exec (.sknp x) s = .next { s with run := .faulted (.keyIndexUndefined (s.reg x)) })

/-- R184: LD_VX_K only enters the wait; the next `key_down` writes its key to `Vx`, marks it down and
lets the machine run on from `PC`. A key already down does not end the wait. -/
def Obligations.KeyWaitIsEnteredAndCompleted : Prop :=
  ∀ (x : RegIdx) (s : State),
    exec (.ldVxK x) s = .next { s with run := .waitingKey x } ∧
    ∀ k : KeyIdx, ∃ t, ({ s with run := .waitingKey x } : State).applyEvent (.keyDown k) = t ∧
      t = { s with v := t.v, key := t.key, run := .running } ∧
      (t.reg x).toNat = k.val ∧ (∀ r, r ≠ x → t.reg r = s.reg r) ∧
      ∀ j, t.isDown j = if j = k then true else s.isDown j

/-- R185, R186, R187: the three timer moves, each with nothing else changed. -/
def Obligations.TimerMoves : Prop :=
  ∀ (x : RegIdx) (s : State),
    (∃ t, exec (.ldVxDt x) s = .next t ∧ t = { s with v := t.v } ∧
      ∀ r, t.reg r = if r = x then s.dt else s.reg r) ∧
    exec (.ldDtVx x) s = .next { s with dt := s.reg x } ∧
    exec (.ldStVx x) s = .next { s with st := s.reg x }

/-! ### Whole-machine frames

These hold of a raising instruction's next state too: that there is one is assumption log 5, what it
holds beside `RUN` assumption log 12. -/

/-- R23, R22: an instruction changes no register but those of its column "V written"; in particular `VF`
is changed only as a flag of `8xy4` to `8xy7`, `8xyE`, `Dxyn` or as the named register. -/
def Obligations.OnlyListedRegistersChange : Prop :=
  ∀ (i : Instr) (s t : State), exec i s = .next t → ∀ r, r ∉ regsWritten i → t.reg r = s.reg r

/-- R53: no instruction but LD_B and LD_MEM_VX changes memory. -/
def Obligations.OnlyTwoInstructionsStore : Prop :=
  ∀ (i : Instr) (s t : State), exec i s = .next t → (∀ x, i ≠ .ldB x) → (∀ x, i ≠ .ldMemVx x) →
    t.mem = s.mem ∧ ∀ a, t.mem.get a = s.mem.get a

/-- R166: no instruction but CLS and DRW, and no event, changes a pixel. -/
def Obligations.OnlyClearAndDrawChangePixels : Prop :=
  (∀ (i : Instr) (s t : State), exec i s = .next t → i ≠ .cls → (∀ x y n, i ≠ .drw x y n) →
    ∀ px py, t.pixel px py = s.pixel px py) ∧
  ∀ (es : List Event) (s : State) (px py : Nat), (s.applyEvents es).pixel px py = s.pixel px py

/-- R28, R29: no instruction but CALL and RET changes `SP` or a stack slot, and RET changes no slot. -/
def Obligations.OnlyCallAndReturnTouchTheStack : Prop :=
  ∀ (i : Instr) (s t : State), exec i s = .next t → (∀ nnn, i ≠ .call nnn) →
    t.stack = s.stack ∧ (i ≠ .ret → t.sp = s.sp)

/-- R24: `I` is changed only by LD_I, ADD_I and LD_F. -/
def Obligations.OnlyThreeInstructionsWriteI : Prop :=
  ∀ (i : Instr) (s t : State), exec i s = .next t → (∀ nnn, i ≠ .ldI nnn) → (∀ x, i ≠ .addI x) →
    (∀ x, i ≠ .ldF x) → t.i = s.i

/-- R23, R100: beyond the fetch advance, `PC` is changed only by the control flow instructions and the
two key skips; no instruction changes the keypad, the parameter or the events to come. -/
def Obligations.OnlyControlFlowWritesPc : Prop :=
  ∀ (i : Instr) (s t : State), exec i s = .next t →
    (writesPc i = false → t.pc = s.pc) ∧ t.key = s.key ∧ t.vfOrder = s.vfOrder ∧
      t.schedule = s.schedule

/-! ### Invariants -/

/-- The memory stays in canonical form (the model's representation: assumption log 9), in every state,
reachable or not: no instruction writes outside 0..4095. -/
def Obligations.StepKeepsMemoryCanonical : Prop :=
  ∀ s t : State, s.memCanonical = true → step s = .next t → t.memCanonical = true

/-- Reset memory is in canonical form (assumption log 9), and so is that of construction with any font
and of any load that succeeds. -/
def Obligations.ResetMemoryIsCanonical : Prop :=
  State.reset.memCanonical = true ∧
  (∀ (font : Vector Byte 80) (order : VfOrder), (State.construct font order).memCanonical = true) ∧
  ∀ (s t : State) (image : List Byte), s.memCanonical = true → s.load image = some t →
    t.memCanonical = true

/-- R27: with `PC` at most 0x10FE and every stack slot at most 0x1000, a step keeps them so; hence no
write of `PC` ever wraps. -/
def Obligations.StepKeepsPcBounded : Prop :=
  ∀ s t : State, s.PcBounded → step s = .next t → t.PcBounded

/-- R27: the bound holds after reset and after any load onto it. -/
def Obligations.ResetPcIsBounded : Prop :=
  State.reset.PcBounded ∧
  ∀ (font : Vector Byte 80) (order : VfOrder) (image : List Byte) (t : State),
    State.launch font order image = some t → t.PcBounded

/-! ### Construction, load, end of a run -/

/-- R40: every piece of state at construction. The font bytes are a premise (R41). The parameter and
the inputs are the model's own fields. -/
def Obligations.ConstructionState : Prop :=
  ∀ (font : Vector Byte 80) (order : VfOrder), ∃ s, State.construct font order = s ∧
    (∀ r, s.reg r = 0) ∧ s.i = 0 ∧ s.pc = 0 ∧ s.sp = 0 ∧ (∀ j, s.stack.get j = 0) ∧
    s.dt = 0 ∧ s.st = 0 ∧ (∀ a : Fin 80, s.mem.get a.val = font.get a) ∧
    (∀ a, 0x50 ≤ a → a < 4096 → s.mem.get a = 0) ∧ (∀ x y, s.pixel x y = false) ∧
    (∀ k, s.isDown k = false) ∧ s.run = .running ∧ s.vfOrder = order

/-- The reset state is construction with the default parameters (assumption log 1 and 2). -/
def Obligations.ResetIsDefaultConstruction : Prop :=
  State.reset = State.construct (Vector.ofFn fun j => Config.fontGlyphs.getD j.val 0) .asWritten

/-- R242, R243: an image of at most 3584 bytes is placed at 0x200 with `PC` at its start, every other
byte and piece of state as before; a longer one is refused. (The load is made from outside:
assumption log 10.) -/
def Obligations.LoadPlacesTheImage : Prop :=
  ∀ (s : State) (image : List Byte), s.mem.wf = true →
    (image.length > 3584 → s.load image = none) ∧
    (image.length ≤ 3584 → ∃ t, s.load image = some t ∧ t = { s with mem := t.mem, pc := 0x200 } ∧
      (∀ j < image.length, t.mem.get (0x200 + j) = image.getD j 0) ∧
      ∀ a, ¬(0x200 ≤ a ∧ a < 0x200 + image.length) → t.mem.get a = s.mem.get a)

/-- R254: from a state where the run has ended, with no event due, a step leaves the whole state
unchanged. -/
def Obligations.EndedRunStaysUnchanged : Prop :=
  ∀ s : State, s.ended = true → s.schedule = [] → step s = .next s

/-- A word stored where the next fetch reads is what the very next step runs (assumption log 10):
an instruction is executed, an unknown word is a no-op. -/
def Obligations.StoredFetchWordRuns : Prop :=
  ∀ (s : State) (w : Nat), s.mem.wf = true → w < 65536 →
    (∀ i, decodeTableWord 16 w = some i →
      step (s.withFetchWord 16 w) = exec i (s.withFetchWord 16 w).deliver.advance) ∧
    (decodeTableWord 16 w = none →
      step (s.withFetchWord 16 w) = .next (s.withFetchWord 16 w).deliver.advance)
end

