-- ==== Sys2Proof/Laws/Decode.lean ====
section
/-! SUPPORT. The number of an encoded word by format, the fields of a word as numbers, and words under
the masks of R80. -/

namespace Sys2Proof

theorem addrOk_iff {nnn : Word} : addrOk nnn = true ↔ nnn.toNat < 4096 := by simp [addrOk]

theorem heightOk_iff {n : Nat} : heightOk n = true ↔ n < 16 := by simp [heightOk]

/-- ADDR (R74). -/
theorem encAddr_toNat {o : Nat} {nnn : Word} (ho : o < 16) (h : nnn.toNat < 4096) :
    (encAddr o nnn).toNat = o * 4096 + nnn.toNat := by
  rw [encAddr, BitVec.toNat_ofNat]; omega

/-- REG_IMM (R74). -/
theorem encRegImm_toNat {o : Nat} {x : RegIdx} {kk : Byte} (ho : o < 16) :
    (encRegImm o x kk).toNat = o * 4096 + x.val * 256 + kk.toNat := by
  have := x.isLt
  have := kk.isLt
  rw [encRegImm, BitVec.toNat_ofNat]; omega

/-- REG_REG and REG_REG_N (R74). -/
theorem encRegReg_toNat {o low : Nat} {x y : RegIdx} (ho : o < 16) (hl : low < 16) :
    (encRegReg o x y low).toNat = o * 4096 + x.val * 256 + y.val * 16 + low := by
  have := x.isLt
  have := y.isLt
  rw [encRegReg, BitVec.toNat_ofNat]; omega

/-- REG (R74). -/
theorem encReg_toNat {o low : Nat} {x : RegIdx} (ho : o < 16) (hl : low < 256) :
    (encReg o x low).toNat = o * 4096 + x.val * 256 + low := by
  have := x.isLt
  rw [encReg, BitVec.toNat_ofNat]; omega

/-! ### The fields (R73) as numbers -/

theorem bits_15_12 (op : Word) : bits op 15 12 = op.toNat / 4096 := by
  have := op.isLt
  simp only [bits]; omega

theorem bits_15_8 (op : Word) : bits op 15 8 = op.toNat / 256 := by
  have := op.isLt
  simp only [bits]; omega

theorem bits_7_0 (op : Word) : bits op 7 0 = op.toNat % 256 := by
  simp [bits]

theorem fieldX_val (op : Word) : (fieldX op).val = op.toNat / 256 % 16 := by
  simp [fieldX, bits]

theorem fieldY_val (op : Word) : (fieldY op).val = op.toNat / 16 % 16 := by
  simp [fieldY, bits]

theorem fieldN_eq (op : Word) : fieldN op = op.toNat % 16 := by
  simp [fieldN, bits]

theorem fieldKK_toNat (op : Word) : (fieldKK op).toNat = op.toNat % 256 := by
  simp [fieldKK, bits]

theorem fieldNNN_toNat (op : Word) : (fieldNNN op).toNat = op.toNat % 4096 := by
  simp only [fieldNNN, bits, BitVec.toNat_ofNat]; omega

/-! ### The fields of an encoded word, by format -/

theorem bits_encAddr {o : Nat} {nnn : Word} (ho : o < 16) (h : nnn.toNat < 4096) :
    bits (encAddr o nnn) 15 12 = o := by
  rw [bits_15_12, encAddr_toNat ho h]; omega

theorem fieldNNN_encAddr {o : Nat} {nnn : Word} (ho : o < 16) (h : nnn.toNat < 4096) :
    fieldNNN (encAddr o nnn) = nnn := by
  apply BitVec.eq_of_toNat_eq
  rw [fieldNNN_toNat, encAddr_toNat ho h]; omega

theorem bits_encRegImm {o : Nat} {x : RegIdx} {kk : Byte} (ho : o < 16) :
    bits (encRegImm o x kk) 15 12 = o := by
  have := x.isLt
  have := kk.isLt
  rw [bits_15_12, encRegImm_toNat ho]; omega

theorem fieldX_encRegImm {o : Nat} {x : RegIdx} {kk : Byte} (ho : o < 16) :
    fieldX (encRegImm o x kk) = x := by
  have := x.isLt
  have := kk.isLt
  apply Fin.ext
  rw [fieldX_val, encRegImm_toNat ho]; omega

theorem fieldKK_encRegImm {o : Nat} {x : RegIdx} {kk : Byte} (ho : o < 16) :
    fieldKK (encRegImm o x kk) = kk := by
  have := kk.isLt
  apply BitVec.eq_of_toNat_eq
  rw [fieldKK_toNat, encRegImm_toNat ho]; omega

theorem bits_encRegReg {o low : Nat} {x y : RegIdx} (ho : o < 16) (hl : low < 16) :
    bits (encRegReg o x y low) 15 12 = o := by
  have := x.isLt
  have := y.isLt
  rw [bits_15_12, encRegReg_toNat ho hl]; omega

theorem fieldX_encRegReg {o low : Nat} {x y : RegIdx} (ho : o < 16) (hl : low < 16) :
    fieldX (encRegReg o x y low) = x := by
  have := x.isLt
  have := y.isLt
  apply Fin.ext
  rw [fieldX_val, encRegReg_toNat ho hl]; omega

theorem fieldY_encRegReg {o low : Nat} {x y : RegIdx} (ho : o < 16) (hl : low < 16) :
    fieldY (encRegReg o x y low) = y := by
  have := y.isLt
  apply Fin.ext
  rw [fieldY_val, encRegReg_toNat ho hl]; omega

theorem fieldN_encRegReg {o low : Nat} {x y : RegIdx} (ho : o < 16) (hl : low < 16) :
    fieldN (encRegReg o x y low) = low := by
  rw [fieldN_eq, encRegReg_toNat ho hl]; omega

theorem bits_encReg {o low : Nat} {x : RegIdx} (ho : o < 16) (hl : low < 256) :
    bits (encReg o x low) 15 12 = o := by
  have := x.isLt
  rw [bits_15_12, encReg_toNat ho hl]; omega

theorem fieldX_encReg {o low : Nat} {x : RegIdx} (ho : o < 16) (hl : low < 256) :
    fieldX (encReg o x low) = x := by
  have := x.isLt
  apply Fin.ext
  rw [fieldX_val, encReg_toNat ho hl]; omega

theorem bits_7_0_encReg {o low : Nat} {x : RegIdx} (ho : o < 16) (hl : low < 256) :
    bits (encReg o x low) 7 0 = low := by
  rw [bits_7_0, encReg_toNat ho hl]; omega

/-! ### The fields of a word give the word back -/

theorem addrOk_fieldNNN (op : Word) : addrOk (fieldNNN op) = true :=
  addrOk_iff.2 (by rw [fieldNNN_toNat]; omega)

theorem heightOk_fieldN (op : Word) : heightOk (fieldN op) = true :=
  heightOk_iff.2 (by rw [fieldN_eq]; omega)

theorem encAddr_fields {op : Word} {o : Nat} (h : bits op 15 12 = o) :
    encAddr o (fieldNNN op) = op := by
  rw [bits_15_12] at h
  have := op.isLt
  apply BitVec.eq_of_toNat_eq
  rw [encAddr_toNat (by omega) (addrOk_iff.1 (addrOk_fieldNNN op)), fieldNNN_toNat]
  omega

theorem encRegImm_fields {op : Word} {o : Nat} (h : bits op 15 12 = o) :
    encRegImm o (fieldX op) (fieldKK op) = op := by
  rw [bits_15_12] at h
  have := op.isLt
  apply BitVec.eq_of_toNat_eq
  rw [encRegImm_toNat (by omega), fieldX_val, fieldKK_toNat]
  omega

theorem encRegReg_fields {op : Word} {o l : Nat} (h : bits op 15 12 = o) (hl : fieldN op = l) :
    encRegReg o (fieldX op) (fieldY op) l = op := by
  rw [bits_15_12] at h
  rw [fieldN_eq] at hl
  have := op.isLt
  apply BitVec.eq_of_toNat_eq
  rw [encRegReg_toNat (by omega) (by omega), fieldX_val, fieldY_val]
  omega

theorem encReg_fields {op : Word} {o l : Nat} (h : bits op 15 12 = o) (hl : bits op 7 0 = l) :
    encReg o (fieldX op) l = op := by
  rw [bits_15_12] at h
  rw [bits_7_0] at hl
  have := op.isLt
  apply BitVec.eq_of_toNat_eq
  rw [encReg_toNat (by omega) (by omega), fieldX_val]
  omega

/-- No two rows of the opcode map match one word (R80). -/
theorem opcodeTable_disjoint : ∀ r1 ∈ opcodeTable, ∀ r2 ∈ opcodeTable,
    r1.fixed &&& r2.mask = r2.fixed &&& r1.mask → r1 = r2 := by decide +kernel

/-- The word of its own two bytes (R55, R72). -/
theorem wordOf_bytesOf (op : Word) : wordOf (bytesOf op).1 (bytesOf op).2 = op := by
  have := op.isLt
  apply BitVec.eq_of_toNat_eq
  simp only [wordOf, bytesOf, bits_15_8, bits_7_0, BitVec.toNat_ofNat]
  omega

theorem wordOf_toNat (hi lo : Byte) : (wordOf hi lo).toNat = hi.toNat * 256 + lo.toNat := by
  have := hi.isLt
  have := lo.isLt
  rw [wordOf, BitVec.toNat_ofNat]; omega

/-! ### Words under the masks of R80 -/

/-- Under mask 0xF000 only the top nibble is left. -/
theorem and_F000_toNat (op : Word) : (op &&& 0xF000).toNat = op.toNat / 4096 * 4096 := by
  have e : op &&& (0xF000 : Word) = (op >>> 12) <<< 12 := by
    apply BitVec.eq_of_getLsbD_eq
    intro j hj
    interval_cases j <;> simp
  have := op.isLt
  rw [e, BitVec.toNat_shiftLeft, BitVec.toNat_ushiftRight, Nat.shiftRight_eq_div_pow, Nat.shiftLeft_eq]
  omega

/-- Under a mask of `k` low bits the remainder is left. -/
theorem and_low_toNat (op : Word) (k : Nat) (hk : k ≤ 16) :
    (op &&& BitVec.ofNat 16 (2 ^ k - 1)).toNat = op.toNat % 2 ^ k := by
  have h : 2 ^ k ≤ 2 ^ 16 := Nat.pow_le_pow_right (by omega) hk
  have h' : 0 < 2 ^ k := Nat.two_pow_pos k
  rw [BitVec.toNat_and, BitVec.toNat_ofNat, Nat.mod_eq_of_lt (by omega), Nat.and_two_pow_sub_one_eq_mod]

/-- A mask of the top nibble and some low bits adds up its two parts. -/
theorem and_split_toNat (op m : Word) (h : 0xF000 &&& m = (0 : Word)) :
    (op &&& (0xF000 ||| m)).toNat = (op &&& 0xF000).toNat + (op &&& m).toNat := by
  have e : op &&& (0xF000 ||| m) = (op &&& 0xF000) ||| (op &&& m) := BitVec.and_or_distrib_left
  have z : (op &&& 0xF000) &&& (op &&& m) = 0#16 := by
    rw [show (op &&& 0xF000) &&& (op &&& m) = op &&& (0xF000 &&& m) by
      apply BitVec.eq_of_getLsbD_eq
      intro j hj
      simp only [BitVec.getLsbD_and]
      cases op.getLsbD j <;> simp, h]
    simp
  rw [e, ← BitVec.add_eq_or_of_and_eq_zero _ _ z, BitVec.toNat_add_of_and_eq_zero z]

/-- Under mask 0xF00F the top and the lowest nibble are left. -/
theorem and_F00F_toNat (op : Word) : (op &&& 0xF00F).toNat = op.toNat / 4096 * 4096 + op.toNat % 16 := by
  rw [show (0xF00F : Word) = 0xF000 ||| 0xF by decide, and_split_toNat _ _ (by decide), and_F000_toNat]
  exact congrArg _ (and_low_toNat op 4 (by omega))

/-- Under mask 0xF0FF the top nibble and the low byte are left. -/
theorem and_F0FF_toNat (op : Word) : (op &&& 0xF0FF).toNat = op.toNat / 4096 * 4096 + op.toNat % 256 := by
  rw [show (0xF0FF : Word) = 0xF000 ||| 0xFF by decide, and_split_toNat _ _ (by decide), and_F000_toNat]
  exact congrArg _ (and_low_toNat op 8 (by omega))

/-- A row of mask 0xF000 matches by the top nibble (R77). -/
theorem match_F000 {op : Word} {f : Nat} (hf : f < 16) :
    op &&& 0xF000 = BitVec.ofNat 16 (f * 4096) ↔ op.toNat / 4096 = f := by
  have := op.isLt
  rw [← BitVec.toNat_inj, and_F000_toNat, BitVec.toNat_ofNat]
  omega

/-- A row of mask 0xF00F matches by the top nibble and `n` (R77). -/
theorem match_F00F {op : Word} {f n : Nat} (hf : f < 16) (hn : n < 16) :
    op &&& 0xF00F = BitVec.ofNat 16 (f * 4096 + n) ↔ op.toNat / 4096 = f ∧ op.toNat % 16 = n := by
  have := op.isLt
  rw [← BitVec.toNat_inj, and_F00F_toNat, BitVec.toNat_ofNat]
  omega

/-- A row of mask 0xF0FF matches by the top nibble and `kk` (R77). -/
theorem match_F0FF {op : Word} {f k : Nat} (hf : f < 16) (hk : k < 256) :
    op &&& 0xF0FF = BitVec.ofNat 16 (f * 4096 + k) ↔ op.toNat / 4096 = f ∧ op.toNat % 256 = k := by
  have := op.isLt
  rw [← BitVec.toNat_inj, and_F0FF_toNat, BitVec.toNat_ofNat]
  omega

end Sys2Proof
end

