-- ==== Sys2Proof/Laws/Memory.lean ====
section
/-! SUPPORT. The laws of memory: a write keeps the canonical form, a read after a write, and what
consecutive writes leave (R50, R51, R57). -/

namespace Sys2Proof.Machine.Memory

/-- A canonical memory from `hi` on is one from any lower address on. -/
theorem wfFrom_mono {lo hi : Nat} (h : lo ≤ hi) : ∀ {m : Memory}, wfFrom hi m = true → wfFrom lo m = true
  | [], _ => rfl
  | (a, v) :: m, hm => by
    simp only [wfFrom, Bool.and_eq_true, decide_eq_true_eq] at hm ⊢
    exact ⟨⟨⟨le_trans h hm.1.1.1, hm.1.1.2⟩, hm.1.2⟩, hm.2⟩

/-- Below its first possible address a canonical memory lists nothing. -/
theorem get_of_lt {lo a : Nat} (h : a < lo) : ∀ {m : Memory}, wfFrom lo m = true → get m a = unlisted a
  | [], _ => rfl
  | (b, v) :: m, hm => by
    simp only [wfFrom, Bool.and_eq_true, decide_eq_true_eq] at hm
    have hab : a ≠ b := by omega
    simp only [get, if_neg hab]
    exact get_of_lt (lo := b + 1) (by omega) hm.2

/-- Outside the address space a canonical memory lists nothing. -/
theorem get_of_size_le {lo a : Nat} (h : Config.memSize ≤ a) : ∀ {m : Memory}, wfFrom lo m = true →
    get m a = unlisted a
  | [], _ => rfl
  | (b, v) :: m, hm => by
    simp only [wfFrom, Bool.and_eq_true, decide_eq_true_eq] at hm
    have hab : a ≠ b := by omega
    simp only [get, if_neg hab]
    exact get_of_size_le h hm.2

theorem wfFrom_listed {lo a : Nat} {v : Byte} {m : Memory} (hlo : lo ≤ a) (ha : a < Config.memSize)
    (hm : wfFrom (a + 1) m = true) : wfFrom lo (listed a v m) = true := by
  unfold listed
  split
  · exact wfFrom_mono (by omega) hm
  · simp_all [wfFrom]

/-- A write keeps the canonical form. -/
theorem wfFrom_put {a : Nat} {v : Byte} (ha : a < Config.memSize) : ∀ {m : Memory} {lo : Nat}, lo ≤ a →
    wfFrom lo m = true → wfFrom lo (put m a v) = true
  | [], lo, hlo, _ => wfFrom_listed hlo ha rfl
  | (b, w) :: m, lo, hlo, hm => by
    have hm' := hm
    simp only [wfFrom, Bool.and_eq_true, decide_eq_true_eq] at hm'
    simp only [put]
    split
    · refine wfFrom_listed hlo ha ?_
      simp only [wfFrom, Bool.and_eq_true, decide_eq_true_eq]
      exact ⟨⟨⟨by omega, hm'.1.1.2⟩, hm'.1.2⟩, hm'.2⟩
    · split
      · subst b
        exact wfFrom_listed hlo ha hm'.2
      · simp only [wfFrom, Bool.and_eq_true, decide_eq_true_eq]
        exact ⟨⟨⟨hm'.1.1.1, hm'.1.1.2⟩, hm'.1.2⟩, wfFrom_put ha (by omega) hm'.2⟩

/-- A write inside memory keeps the canonical form. -/
theorem wf_put {m : Memory} {a : Nat} {v : Byte} (ha : a < Config.memSize) (hm : m.wf = true) :
    (put m a v).wf = true := wfFrom_put ha (Nat.zero_le _) hm

theorem get_listed_self {lo a : Nat} {v : Byte} {m : Memory} (hlo : a < lo) (hm : wfFrom lo m = true) :
    get (listed a v m) a = v := by
  unfold listed
  split
  · rename_i h
    rw [get_of_lt hlo hm, h]
  · simp [get]

theorem get_listed_ne {a c : Nat} {v : Byte} {m : Memory} (h : c ≠ a) :
    get (listed a v m) c = get m c := by
  unfold listed
  split
  · rfl
  · simp [get, h]

/-- A read after a write of the same address gives the value written, in canonical memory. -/
theorem get_put_self {a : Nat} {v : Byte} : ∀ {m : Memory} {lo : Nat}, wfFrom lo m = true →
    get (put m a v) a = v
  | [], _, _ => get_listed_self (lo := a + 1) (by omega) rfl
  | (b, w) :: m, lo, hm => by
    have hm' := hm
    simp only [wfFrom, Bool.and_eq_true, decide_eq_true_eq] at hm'
    simp only [put]
    split
    · refine get_listed_self (lo := b) ‹_› ?_
      simp only [wfFrom, Bool.and_eq_true, decide_eq_true_eq]
      exact ⟨⟨⟨le_refl _, hm'.1.1.2⟩, hm'.1.2⟩, hm'.2⟩
    · split
      · subst b
        exact get_listed_self (lo := a + 1) (by omega) hm'.2
      · rename_i h1 h2
        simp only [get, if_neg h2]
        exact get_put_self hm'.2

/-- A write leaves every other address alone. -/
theorem get_put_ne {a c : Nat} {v : Byte} (h : c ≠ a) : ∀ {m : Memory}, get (put m a v) c = get m c
  | [] => get_listed_ne h
  | (b, w) :: m => by
    simp only [put]
    split
    · exact get_listed_ne h
    · split
      · subst b
        rw [get_listed_ne h]
        simp [get, h]
      · simp only [get]
        split
        · rfl
        · exact get_put_ne h

/-- A read after a write, in canonical memory (R51, R57). -/
theorem get_put {m : Memory} (hm : m.wf = true) (a c : Nat) (v : Byte) :
    get (put m a v) c = if c = a then v else get m c := by
  split
  · subst c
    exact get_put_self hm
  · exact get_put_ne ‹_›

/-- Consecutive writes inside memory keep the canonical form. -/
theorem wf_putBytes : ∀ {bs : List Byte} {m : Memory} {a : Nat}, a + bs.length ≤ Config.memSize →
    m.wf = true → (putBytes m a bs).wf = true
  | [], _, _, _, hm => hm
  | b :: bs, m, a, ha, hm => by
    simp only [List.length_cons] at ha
    exact wf_putBytes (bs := bs) (m := put m a b) (a := a + 1) (by omega) (wf_put (by omega) hm)

/-- What consecutive writes leave at each address. -/
theorem get_putBytes : ∀ {bs : List Byte} {m : Memory} {a : Nat}, a + bs.length ≤ Config.memSize →
    m.wf = true → ∀ c, get (putBytes m a bs) c =
      if a ≤ c ∧ c < a + bs.length then bs.getD (c - a) 0 else get m c
  | [], m, a, _, _, c => by
    have : ¬(a ≤ c ∧ c < a) := by omega
    simp [putBytes, this]
  | b :: bs, m, a, ha, hm, c => by
    simp only [List.length_cons] at ha
    simp only [putBytes, List.length_cons]
    rw [get_putBytes (by omega) (wf_put (by omega) hm), get_put hm]
    by_cases h1 : c = a
    · subst c
      have h2 : ¬(a + 1 ≤ a ∧ a < a + 1 + bs.length) := by omega
      have h3 : a ≤ a ∧ a < a + (bs.length + 1) := by omega
      rw [if_neg h2, if_pos rfl, if_pos h3, Nat.sub_self, List.getD_cons_zero]
    · by_cases h2 : a + 1 ≤ c ∧ c < a + 1 + bs.length
      · have h3 : a ≤ c ∧ c < a + (bs.length + 1) := by omega
        obtain ⟨k, hk⟩ : ∃ k, c - a = k + 1 := ⟨c - a - 1, by omega⟩
        have h4 : c - (a + 1) = k := by omega
        rw [if_pos h2, if_pos h3, hk, h4, List.getD_cons_succ]
      · have h3 : ¬(a ≤ c ∧ c < a + (bs.length + 1)) := by omega
        rw [if_neg h2, if_neg h3, if_neg h1]

/-- Nothing is listed in the memory of the reset state, which is canonical. -/
theorem reset_wf : State.reset.mem.wf = true := rfl

end Sys2Proof.Machine.Memory
end

