-- ==== Sys2Proof/Laws/State.lean ====
section
/-! SUPPORT. One lemma per field per named update of the state, and the register read after each. -/

namespace Sys2Proof.Machine

variable (s : State)

/-! ### `State.setReg` -/

@[simp] theorem State.setReg_v (r : RegIdx) (b : Byte) : (s.setReg r b).v = s.v.set r.val b r.isLt := rfl
@[simp] theorem State.setReg_i (r : RegIdx) (b : Byte) : (s.setReg r b).i = s.i := rfl
@[simp] theorem State.setReg_pc (r : RegIdx) (b : Byte) : (s.setReg r b).pc = s.pc := rfl
@[simp] theorem State.setReg_sp (r : RegIdx) (b : Byte) : (s.setReg r b).sp = s.sp := rfl
@[simp] theorem State.setReg_stack (r : RegIdx) (b : Byte) : (s.setReg r b).stack = s.stack := rfl
@[simp] theorem State.setReg_dt (r : RegIdx) (b : Byte) : (s.setReg r b).dt = s.dt := rfl
@[simp] theorem State.setReg_st (r : RegIdx) (b : Byte) : (s.setReg r b).st = s.st := rfl
@[simp] theorem State.setReg_mem (r : RegIdx) (b : Byte) : (s.setReg r b).mem = s.mem := rfl
@[simp] theorem State.setReg_fb (r : RegIdx) (b : Byte) : (s.setReg r b).fb = s.fb := rfl
@[simp] theorem State.setReg_key (r : RegIdx) (b : Byte) : (s.setReg r b).key = s.key := rfl
@[simp] theorem State.setReg_run (r : RegIdx) (b : Byte) : (s.setReg r b).run = s.run := rfl
@[simp] theorem State.setReg_vfOrder (r : RegIdx) (b : Byte) : (s.setReg r b).vfOrder = s.vfOrder := rfl
@[simp] theorem State.setReg_schedule (r : RegIdx) (b : Byte) : (s.setReg r b).schedule = s.schedule := rfl
@[simp] theorem State.setReg_rand (r : RegIdx) (b : Byte) : (s.setReg r b).rand = s.rand := rfl
@[simp] theorem State.setReg_draws (r : RegIdx) (b : Byte) : (s.setReg r b).draws = s.draws := rfl

/-! ### `State.setI` -/

@[simp] theorem State.setI_v (w : Word) : (s.setI w).v = s.v := rfl
@[simp] theorem State.setI_i (w : Word) : (s.setI w).i = w := rfl
@[simp] theorem State.setI_pc (w : Word) : (s.setI w).pc = s.pc := rfl
@[simp] theorem State.setI_sp (w : Word) : (s.setI w).sp = s.sp := rfl
@[simp] theorem State.setI_stack (w : Word) : (s.setI w).stack = s.stack := rfl
@[simp] theorem State.setI_dt (w : Word) : (s.setI w).dt = s.dt := rfl
@[simp] theorem State.setI_st (w : Word) : (s.setI w).st = s.st := rfl
@[simp] theorem State.setI_mem (w : Word) : (s.setI w).mem = s.mem := rfl
@[simp] theorem State.setI_fb (w : Word) : (s.setI w).fb = s.fb := rfl
@[simp] theorem State.setI_key (w : Word) : (s.setI w).key = s.key := rfl
@[simp] theorem State.setI_run (w : Word) : (s.setI w).run = s.run := rfl
@[simp] theorem State.setI_vfOrder (w : Word) : (s.setI w).vfOrder = s.vfOrder := rfl
@[simp] theorem State.setI_schedule (w : Word) : (s.setI w).schedule = s.schedule := rfl
@[simp] theorem State.setI_rand (w : Word) : (s.setI w).rand = s.rand := rfl
@[simp] theorem State.setI_draws (w : Word) : (s.setI w).draws = s.draws := rfl
@[simp] theorem State.reg_setI (w : Word) (q : RegIdx) : (s.setI w).reg q = s.reg q := rfl

/-! ### `State.setPc` -/

@[simp] theorem State.setPc_v (w : Word) : (s.setPc w).v = s.v := rfl
@[simp] theorem State.setPc_i (w : Word) : (s.setPc w).i = s.i := rfl
@[simp] theorem State.setPc_pc (w : Word) : (s.setPc w).pc = w := rfl
@[simp] theorem State.setPc_sp (w : Word) : (s.setPc w).sp = s.sp := rfl
@[simp] theorem State.setPc_stack (w : Word) : (s.setPc w).stack = s.stack := rfl
@[simp] theorem State.setPc_dt (w : Word) : (s.setPc w).dt = s.dt := rfl
@[simp] theorem State.setPc_st (w : Word) : (s.setPc w).st = s.st := rfl
@[simp] theorem State.setPc_mem (w : Word) : (s.setPc w).mem = s.mem := rfl
@[simp] theorem State.setPc_fb (w : Word) : (s.setPc w).fb = s.fb := rfl
@[simp] theorem State.setPc_key (w : Word) : (s.setPc w).key = s.key := rfl
@[simp] theorem State.setPc_run (w : Word) : (s.setPc w).run = s.run := rfl
@[simp] theorem State.setPc_vfOrder (w : Word) : (s.setPc w).vfOrder = s.vfOrder := rfl
@[simp] theorem State.setPc_schedule (w : Word) : (s.setPc w).schedule = s.schedule := rfl
@[simp] theorem State.setPc_rand (w : Word) : (s.setPc w).rand = s.rand := rfl
@[simp] theorem State.setPc_draws (w : Word) : (s.setPc w).draws = s.draws := rfl
@[simp] theorem State.reg_setPc (w : Word) (q : RegIdx) : (s.setPc w).reg q = s.reg q := rfl

/-! ### `State.setDt` -/

@[simp] theorem State.setDt_v (b : Byte) : (s.setDt b).v = s.v := rfl
@[simp] theorem State.setDt_i (b : Byte) : (s.setDt b).i = s.i := rfl
@[simp] theorem State.setDt_pc (b : Byte) : (s.setDt b).pc = s.pc := rfl
@[simp] theorem State.setDt_sp (b : Byte) : (s.setDt b).sp = s.sp := rfl
@[simp] theorem State.setDt_stack (b : Byte) : (s.setDt b).stack = s.stack := rfl
@[simp] theorem State.setDt_dt (b : Byte) : (s.setDt b).dt = b := rfl
@[simp] theorem State.setDt_st (b : Byte) : (s.setDt b).st = s.st := rfl
@[simp] theorem State.setDt_mem (b : Byte) : (s.setDt b).mem = s.mem := rfl
@[simp] theorem State.setDt_fb (b : Byte) : (s.setDt b).fb = s.fb := rfl
@[simp] theorem State.setDt_key (b : Byte) : (s.setDt b).key = s.key := rfl
@[simp] theorem State.setDt_run (b : Byte) : (s.setDt b).run = s.run := rfl
@[simp] theorem State.setDt_vfOrder (b : Byte) : (s.setDt b).vfOrder = s.vfOrder := rfl
@[simp] theorem State.setDt_schedule (b : Byte) : (s.setDt b).schedule = s.schedule := rfl
@[simp] theorem State.setDt_rand (b : Byte) : (s.setDt b).rand = s.rand := rfl
@[simp] theorem State.setDt_draws (b : Byte) : (s.setDt b).draws = s.draws := rfl
@[simp] theorem State.reg_setDt (b : Byte) (q : RegIdx) : (s.setDt b).reg q = s.reg q := rfl

/-! ### `State.setSt` -/

@[simp] theorem State.setSt_v (b : Byte) : (s.setSt b).v = s.v := rfl
@[simp] theorem State.setSt_i (b : Byte) : (s.setSt b).i = s.i := rfl
@[simp] theorem State.setSt_pc (b : Byte) : (s.setSt b).pc = s.pc := rfl
@[simp] theorem State.setSt_sp (b : Byte) : (s.setSt b).sp = s.sp := rfl
@[simp] theorem State.setSt_stack (b : Byte) : (s.setSt b).stack = s.stack := rfl
@[simp] theorem State.setSt_dt (b : Byte) : (s.setSt b).dt = s.dt := rfl
@[simp] theorem State.setSt_st (b : Byte) : (s.setSt b).st = b := rfl
@[simp] theorem State.setSt_mem (b : Byte) : (s.setSt b).mem = s.mem := rfl
@[simp] theorem State.setSt_fb (b : Byte) : (s.setSt b).fb = s.fb := rfl
@[simp] theorem State.setSt_key (b : Byte) : (s.setSt b).key = s.key := rfl
@[simp] theorem State.setSt_run (b : Byte) : (s.setSt b).run = s.run := rfl
@[simp] theorem State.setSt_vfOrder (b : Byte) : (s.setSt b).vfOrder = s.vfOrder := rfl
@[simp] theorem State.setSt_schedule (b : Byte) : (s.setSt b).schedule = s.schedule := rfl
@[simp] theorem State.setSt_rand (b : Byte) : (s.setSt b).rand = s.rand := rfl
@[simp] theorem State.setSt_draws (b : Byte) : (s.setSt b).draws = s.draws := rfl
@[simp] theorem State.reg_setSt (b : Byte) (q : RegIdx) : (s.setSt b).reg q = s.reg q := rfl

/-! ### `State.advance` -/

@[simp] theorem State.advance_v : s.advance.v = s.v := rfl
@[simp] theorem State.advance_i : s.advance.i = s.i := rfl
@[simp] theorem State.advance_pc : s.advance.pc = s.pc + 2 := rfl
@[simp] theorem State.advance_sp : s.advance.sp = s.sp := rfl
@[simp] theorem State.advance_stack : s.advance.stack = s.stack := rfl
@[simp] theorem State.advance_dt : s.advance.dt = s.dt := rfl
@[simp] theorem State.advance_st : s.advance.st = s.st := rfl
@[simp] theorem State.advance_mem : s.advance.mem = s.mem := rfl
@[simp] theorem State.advance_fb : s.advance.fb = s.fb := rfl
@[simp] theorem State.advance_key : s.advance.key = s.key := rfl
@[simp] theorem State.advance_run : s.advance.run = s.run := rfl
@[simp] theorem State.advance_vfOrder : s.advance.vfOrder = s.vfOrder := rfl
@[simp] theorem State.advance_schedule : s.advance.schedule = s.schedule := rfl
@[simp] theorem State.advance_rand : s.advance.rand = s.rand := rfl
@[simp] theorem State.advance_draws : s.advance.draws = s.draws := rfl
@[simp] theorem State.reg_advance (q : RegIdx) : s.advance.reg q = s.reg q := rfl

/-! ### `State.skip` -/

@[simp] theorem State.skip_v : s.skip.v = s.v := rfl
@[simp] theorem State.skip_i : s.skip.i = s.i := rfl
@[simp] theorem State.skip_pc : s.skip.pc = s.pc + 2 := rfl
@[simp] theorem State.skip_sp : s.skip.sp = s.sp := rfl
@[simp] theorem State.skip_stack : s.skip.stack = s.stack := rfl
@[simp] theorem State.skip_dt : s.skip.dt = s.dt := rfl
@[simp] theorem State.skip_st : s.skip.st = s.st := rfl
@[simp] theorem State.skip_mem : s.skip.mem = s.mem := rfl
@[simp] theorem State.skip_fb : s.skip.fb = s.fb := rfl
@[simp] theorem State.skip_key : s.skip.key = s.key := rfl
@[simp] theorem State.skip_run : s.skip.run = s.run := rfl
@[simp] theorem State.skip_vfOrder : s.skip.vfOrder = s.vfOrder := rfl
@[simp] theorem State.skip_schedule : s.skip.schedule = s.schedule := rfl
@[simp] theorem State.skip_rand : s.skip.rand = s.rand := rfl
@[simp] theorem State.skip_draws : s.skip.draws = s.draws := rfl
@[simp] theorem State.reg_skip (q : RegIdx) : s.skip.reg q = s.reg q := rfl

/-! ### `State.setRun` -/

@[simp] theorem State.setRun_v (r : RunState) : (s.setRun r).v = s.v := rfl
@[simp] theorem State.setRun_i (r : RunState) : (s.setRun r).i = s.i := rfl
@[simp] theorem State.setRun_pc (r : RunState) : (s.setRun r).pc = s.pc := rfl
@[simp] theorem State.setRun_sp (r : RunState) : (s.setRun r).sp = s.sp := rfl
@[simp] theorem State.setRun_stack (r : RunState) : (s.setRun r).stack = s.stack := rfl
@[simp] theorem State.setRun_dt (r : RunState) : (s.setRun r).dt = s.dt := rfl
@[simp] theorem State.setRun_st (r : RunState) : (s.setRun r).st = s.st := rfl
@[simp] theorem State.setRun_mem (r : RunState) : (s.setRun r).mem = s.mem := rfl
@[simp] theorem State.setRun_fb (r : RunState) : (s.setRun r).fb = s.fb := rfl
@[simp] theorem State.setRun_key (r : RunState) : (s.setRun r).key = s.key := rfl
@[simp] theorem State.setRun_run (r : RunState) : (s.setRun r).run = r := rfl
@[simp] theorem State.setRun_vfOrder (r : RunState) : (s.setRun r).vfOrder = s.vfOrder := rfl
@[simp] theorem State.setRun_schedule (r : RunState) : (s.setRun r).schedule = s.schedule := rfl
@[simp] theorem State.setRun_rand (r : RunState) : (s.setRun r).rand = s.rand := rfl
@[simp] theorem State.setRun_draws (r : RunState) : (s.setRun r).draws = s.draws := rfl
@[simp] theorem State.reg_setRun (r : RunState) (q : RegIdx) : (s.setRun r).reg q = s.reg q := rfl

/-! ### `State.raise` -/

@[simp] theorem State.raise_v (f : Fault) : (s.raise f).v = s.v := rfl
@[simp] theorem State.raise_i (f : Fault) : (s.raise f).i = s.i := rfl
@[simp] theorem State.raise_pc (f : Fault) : (s.raise f).pc = s.pc := rfl
@[simp] theorem State.raise_sp (f : Fault) : (s.raise f).sp = s.sp := rfl
@[simp] theorem State.raise_stack (f : Fault) : (s.raise f).stack = s.stack := rfl
@[simp] theorem State.raise_dt (f : Fault) : (s.raise f).dt = s.dt := rfl
@[simp] theorem State.raise_st (f : Fault) : (s.raise f).st = s.st := rfl
@[simp] theorem State.raise_mem (f : Fault) : (s.raise f).mem = s.mem := rfl
@[simp] theorem State.raise_fb (f : Fault) : (s.raise f).fb = s.fb := rfl
@[simp] theorem State.raise_key (f : Fault) : (s.raise f).key = s.key := rfl
@[simp] theorem State.raise_run (f : Fault) : (s.raise f).run = .faulted f := rfl
@[simp] theorem State.raise_vfOrder (f : Fault) : (s.raise f).vfOrder = s.vfOrder := rfl
@[simp] theorem State.raise_schedule (f : Fault) : (s.raise f).schedule = s.schedule := rfl
@[simp] theorem State.raise_rand (f : Fault) : (s.raise f).rand = s.rand := rfl
@[simp] theorem State.raise_draws (f : Fault) : (s.raise f).draws = s.draws := rfl
@[simp] theorem State.reg_raise (f : Fault) (q : RegIdx) : (s.raise f).reg q = s.reg q := rfl

/-! ### `State.storeByte` -/

@[simp] theorem State.storeByte_v (a : Nat) (b : Byte) : (s.storeByte a b).v = s.v := rfl
@[simp] theorem State.storeByte_i (a : Nat) (b : Byte) : (s.storeByte a b).i = s.i := rfl
@[simp] theorem State.storeByte_pc (a : Nat) (b : Byte) : (s.storeByte a b).pc = s.pc := rfl
@[simp] theorem State.storeByte_sp (a : Nat) (b : Byte) : (s.storeByte a b).sp = s.sp := rfl
@[simp] theorem State.storeByte_stack (a : Nat) (b : Byte) : (s.storeByte a b).stack = s.stack := rfl
@[simp] theorem State.storeByte_dt (a : Nat) (b : Byte) : (s.storeByte a b).dt = s.dt := rfl
@[simp] theorem State.storeByte_st (a : Nat) (b : Byte) : (s.storeByte a b).st = s.st := rfl
@[simp] theorem State.storeByte_mem (a : Nat) (b : Byte) : (s.storeByte a b).mem = s.mem.put a b := rfl
@[simp] theorem State.storeByte_fb (a : Nat) (b : Byte) : (s.storeByte a b).fb = s.fb := rfl
@[simp] theorem State.storeByte_key (a : Nat) (b : Byte) : (s.storeByte a b).key = s.key := rfl
@[simp] theorem State.storeByte_run (a : Nat) (b : Byte) : (s.storeByte a b).run = s.run := rfl
@[simp] theorem State.storeByte_vfOrder (a : Nat) (b : Byte) : (s.storeByte a b).vfOrder = s.vfOrder := rfl
@[simp] theorem State.storeByte_schedule (a : Nat) (b : Byte) : (s.storeByte a b).schedule = s.schedule := rfl
@[simp] theorem State.storeByte_rand (a : Nat) (b : Byte) : (s.storeByte a b).rand = s.rand := rfl
@[simp] theorem State.storeByte_draws (a : Nat) (b : Byte) : (s.storeByte a b).draws = s.draws := rfl
@[simp] theorem State.reg_storeByte (a : Nat) (b : Byte) (q : RegIdx) : (s.storeByte a b).reg q = s.reg q := rfl

/-! ### `State.setFb` -/

@[simp] theorem State.setFb_v (fb : Framebuffer) : (s.setFb fb).v = s.v := rfl
@[simp] theorem State.setFb_i (fb : Framebuffer) : (s.setFb fb).i = s.i := rfl
@[simp] theorem State.setFb_pc (fb : Framebuffer) : (s.setFb fb).pc = s.pc := rfl
@[simp] theorem State.setFb_sp (fb : Framebuffer) : (s.setFb fb).sp = s.sp := rfl
@[simp] theorem State.setFb_stack (fb : Framebuffer) : (s.setFb fb).stack = s.stack := rfl
@[simp] theorem State.setFb_dt (fb : Framebuffer) : (s.setFb fb).dt = s.dt := rfl
@[simp] theorem State.setFb_st (fb : Framebuffer) : (s.setFb fb).st = s.st := rfl
@[simp] theorem State.setFb_mem (fb : Framebuffer) : (s.setFb fb).mem = s.mem := rfl
@[simp] theorem State.setFb_fb (fb : Framebuffer) : (s.setFb fb).fb = fb := rfl
@[simp] theorem State.setFb_key (fb : Framebuffer) : (s.setFb fb).key = s.key := rfl
@[simp] theorem State.setFb_run (fb : Framebuffer) : (s.setFb fb).run = s.run := rfl
@[simp] theorem State.setFb_vfOrder (fb : Framebuffer) : (s.setFb fb).vfOrder = s.vfOrder := rfl
@[simp] theorem State.setFb_schedule (fb : Framebuffer) : (s.setFb fb).schedule = s.schedule := rfl
@[simp] theorem State.setFb_rand (fb : Framebuffer) : (s.setFb fb).rand = s.rand := rfl
@[simp] theorem State.setFb_draws (fb : Framebuffer) : (s.setFb fb).draws = s.draws := rfl
@[simp] theorem State.reg_setFb (fb : Framebuffer) (q : RegIdx) : (s.setFb fb).reg q = s.reg q := rfl

/-! ### `State.setKey` and `State.draw` -/

@[simp] theorem State.setKey_v (k : KeyIdx) (b : Bool) : (s.setKey k b).v = s.v := rfl
@[simp] theorem State.setKey_i (k : KeyIdx) (b : Bool) : (s.setKey k b).i = s.i := rfl
@[simp] theorem State.setKey_pc (k : KeyIdx) (b : Bool) : (s.setKey k b).pc = s.pc := rfl
@[simp] theorem State.setKey_sp (k : KeyIdx) (b : Bool) : (s.setKey k b).sp = s.sp := rfl
@[simp] theorem State.setKey_stack (k : KeyIdx) (b : Bool) : (s.setKey k b).stack = s.stack := rfl
@[simp] theorem State.setKey_dt (k : KeyIdx) (b : Bool) : (s.setKey k b).dt = s.dt := rfl
@[simp] theorem State.setKey_st (k : KeyIdx) (b : Bool) : (s.setKey k b).st = s.st := rfl
@[simp] theorem State.setKey_mem (k : KeyIdx) (b : Bool) : (s.setKey k b).mem = s.mem := rfl
@[simp] theorem State.setKey_fb (k : KeyIdx) (b : Bool) : (s.setKey k b).fb = s.fb := rfl
@[simp] theorem State.setKey_run (k : KeyIdx) (b : Bool) : (s.setKey k b).run = s.run := rfl
@[simp] theorem State.setKey_vfOrder (k : KeyIdx) (b : Bool) : (s.setKey k b).vfOrder = s.vfOrder := rfl
@[simp] theorem State.setKey_schedule (k : KeyIdx) (b : Bool) : (s.setKey k b).schedule = s.schedule := rfl
@[simp] theorem State.setKey_rand (k : KeyIdx) (b : Bool) : (s.setKey k b).rand = s.rand := rfl
@[simp] theorem State.setKey_draws (k : KeyIdx) (b : Bool) : (s.setKey k b).draws = s.draws := rfl
@[simp] theorem State.reg_setKey (k : KeyIdx) (b : Bool) (q : RegIdx) : (s.setKey k b).reg q = s.reg q := rfl

@[simp] theorem State.draw_v : s.draw.2.v = s.v := by unfold State.draw; split <;> rfl
@[simp] theorem State.draw_i : s.draw.2.i = s.i := by unfold State.draw; split <;> rfl
@[simp] theorem State.draw_pc : s.draw.2.pc = s.pc := by unfold State.draw; split <;> rfl
@[simp] theorem State.draw_sp : s.draw.2.sp = s.sp := by unfold State.draw; split <;> rfl
@[simp] theorem State.draw_stack : s.draw.2.stack = s.stack := by unfold State.draw; split <;> rfl
@[simp] theorem State.draw_dt : s.draw.2.dt = s.dt := by unfold State.draw; split <;> rfl
@[simp] theorem State.draw_st : s.draw.2.st = s.st := by unfold State.draw; split <;> rfl
@[simp] theorem State.draw_mem : s.draw.2.mem = s.mem := by unfold State.draw; split <;> rfl
@[simp] theorem State.draw_fb : s.draw.2.fb = s.fb := by unfold State.draw; split <;> rfl
@[simp] theorem State.draw_key : s.draw.2.key = s.key := by unfold State.draw; split <;> rfl
@[simp] theorem State.draw_run : s.draw.2.run = s.run := by unfold State.draw; split <;> rfl
@[simp] theorem State.draw_vfOrder : s.draw.2.vfOrder = s.vfOrder := by unfold State.draw; split <;> rfl
@[simp] theorem State.draw_schedule : s.draw.2.schedule = s.schedule := by unfold State.draw; split <;> rfl
@[simp] theorem State.reg_draw (q : RegIdx) : s.draw.2.reg q = s.reg q := by simp [State.reg]

/-! ### `State.reg` after `State.setReg` -/

@[simp] theorem State.reg_setReg (r q : RegIdx) (b : Byte) :
    (s.setReg r b).reg q = if q = r then b else s.reg q := by
  simp only [State.reg, State.setReg, Vector.get_eq_getElem, Vector.getElem_set, Fin.ext_iff, eq_comm]

/-- A register write changes nothing but the register file. -/
theorem State.setReg_eq (r : RegIdx) (b : Byte) : s.setReg r b = { s with v := (s.setReg r b).v } := rfl

/-- Two states that agree on every register have the same register file. -/
theorem State.v_ext {s t : State} (h : ∀ r, s.reg r = t.reg r) : s.v = t.v := by
  apply Vector.ext
  intro j hj
  simpa [State.reg, Vector.get_eq_getElem] using h ⟨j, hj⟩

/-- Writes of different registers commute. -/
theorem State.setReg_comm {r q : RegIdx} (h : r ≠ q) (b c : Byte) :
    (s.setReg r b).setReg q c = (s.setReg q c).setReg r b := by
  have : ((s.setReg r b).setReg q c).v = ((s.setReg q c).setReg r b).v := by
    apply State.v_ext
    intro p
    simp only [State.reg_setReg]
    split <;> split <;> simp_all
  simp only [State.setReg, State.mk.injEq] at this ⊢
  simp [this]

/-- The last write of a register wins. -/
@[simp] theorem State.setReg_setReg (r : RegIdx) (b c : Byte) :
    (s.setReg r b).setReg r c = s.setReg r c := by
  simp [State.setReg]

end Sys2Proof.Machine
end

