-- ==== Sys2Proof/Laws/Ops.lean ====
section
/-! SUPPORT. One lemma per shared operation, saying all it can do; the provers cite these instead of
unfolding the operations. -/

namespace Sys2Proof.Machine

/-! ### Faults and memory access -/

/-- `MemRead(a, 1)` (R50). -/
theorem memRead_of_lt {m : Memory} {a : Nat} (h : a < 4096) : memRead m a = .ok (m.get a) := by
  simp [memRead, Config.memSize, h]

/-- `MemRead(a, 1)` outside memory (R50). -/
theorem memRead_of_le {m : Memory} {a : Nat} (h : 4096 ≤ a) :
    memRead m a = .error (.outOfBounds .read a) := by
  simp [memRead, Config.memSize, Nat.not_lt.2 h]

/-- `MemWrite(a, 1, v)` (R51). -/
theorem memWrite_of_lt {s : State} {a : Nat} {v : Byte} (h : a < 4096) :
    memWrite s a v = .ok (s.storeByte a v) := by
  simp [memWrite, Config.memSize, h]

/-- `MemWrite(a, 1, v)` outside memory (R51). -/
theorem memWrite_of_le {s : State} {a : Nat} {v : Byte} (h : 4096 ≤ a) :
    memWrite s a v = .error (.outOfBounds .write a) := by
  simp [memWrite, Config.memSize, Nat.not_lt.2 h]

/-- `MemRead(a, 2)` (R52). -/
theorem fetchWord_of_lt {m : Memory} {a : Nat} (h : a + 1 < 4096) :
    fetchWord m a = .ok (wordOf (m.get a) (m.get (a + 1))) := by
  simp [fetchWord, Config.memSize, h]

/-- `MemRead(a, 2)` where one byte is outside memory (R52). -/
theorem fetchWord_of_le {m : Memory} {a : Nat} (h : 4096 ≤ a + 1) :
    fetchWord m a = .error (.outOfBounds .fetch a) := by
  simp [fetchWord, Config.memSize, Nat.not_lt.2 h]

/-- The reads of `readBytes` inside memory: the bytes at `a`, `a + 1`, ... (R164). -/
theorem readBytes_ok {m : Memory} : ∀ {n a : Nat}, a + n ≤ 4096 ∨ n = 0 →
    readBytes m a n = .ok ((List.range' a n).map m.get)
  | 0, _, _ => rfl
  | n + 1, a, h => by
    have hn : a + (n + 1) ≤ 4096 := by omega
    simp only [readBytes, memRead_of_lt (show a < 4096 by omega),
      readBytes_ok (n := n) (a := a + 1) (.inl (by omega)), List.range'_succ, List.map_cons]

/-- The reads of `readBytes` that leave memory stop at the first address outside (R205). -/
theorem readBytes_error {m : Memory} : ∀ {n a : Nat}, 0 < n → 4096 < a + n →
    readBytes m a n = .error (.outOfBounds .read (max a 4096))
  | n + 1, a, _, h => by
    by_cases ha : a < 4096
    · have hn : 0 < n := by omega
      simp only [readBytes, memRead_of_lt ha, readBytes_error (m := m) hn (show 4096 < a + 1 + n by omega)]
      congr 2
      omega
    · simp only [readBytes, memRead_of_le (Nat.not_lt.1 ha)]
      congr 2
      omega

/-- All that `storeBytes` can do (R51, R203, R205): memory and `RUN` change; `RUN` becomes the fault at
the first address outside memory, if there is one; the bytes inside are written. -/
theorem storeBytes_spec : ∀ {bs : List Byte} {a : Nat} {s : State}, s.mem.wf = true →
    storeBytes a bs s = { s with mem := (storeBytes a bs s).mem, run := (storeBytes a bs s).run } ∧
    (storeBytes a bs s).run =
      (if a + bs.length ≤ 4096 ∨ bs = [] then s.run else .faulted (.outOfBounds .write (max a 4096))) ∧
    (storeBytes a bs s).mem.wf = true ∧
    ∀ c, (storeBytes a bs s).mem.get c =
      if a ≤ c ∧ c < a + bs.length ∧ c < 4096 then bs.getD (c - a) 0 else s.mem.get c
  | [], a, s, h => by
    refine ⟨rfl, by simp [storeBytes], h, fun c => ?_⟩
    have : ¬(a ≤ c ∧ c < a ∧ c < 4096) := by omega
    simp [storeBytes, this]
  | b :: bs, a, s, h => by
    by_cases ha : a < 4096
    · have hw : (s.storeByte a b).mem.wf = true := Memory.wf_put ha h
      obtain ⟨h1, h2, h3, h4⟩ := storeBytes_spec (bs := bs) (a := a + 1) hw
      have e : storeBytes a (b :: bs) s = storeBytes (a + 1) bs (s.storeByte a b) := by
        simp only [storeBytes, memWrite_of_lt ha]
      rw [e]
      refine ⟨by rw [h1]; rfl, ?_, h3, fun c => ?_⟩
      · rw [h2]
        cases bs with
        | nil => simp; omega
        | cons b' bs =>
          simp only [List.length_cons, reduceCtorEq, or_false, State.storeByte_run]
          have e1 : max (a + 1) 4096 = max a 4096 := by omega
          have e2 : (a + 1 + (bs.length + 1) ≤ 4096) ↔ (a + (bs.length + 1 + 1) ≤ 4096) := by omega
          simp only [e1, e2]
      · rw [h4, State.storeByte_mem, Memory.get_put h]
        simp only [List.length_cons]
        by_cases h5 : c = a
        · subst c
          simp [ha]
        · by_cases h6 : a + 1 ≤ c ∧ c < a + 1 + bs.length ∧ c < 4096
          · have h7 : a ≤ c ∧ c < a + (bs.length + 1) ∧ c < 4096 := by omega
            obtain ⟨k, hk⟩ : ∃ k, c - a = k + 1 := ⟨c - a - 1, by omega⟩
            have h8 : c - (a + 1) = k := by omega
            rw [if_pos h6, if_pos h7, hk, h8, List.getD_cons_succ]
          · have h7 : ¬(a ≤ c ∧ c < a + (bs.length + 1) ∧ c < 4096) := by omega
            rw [if_neg h6, if_neg h7, if_neg h5]
    · have e : storeBytes a (b :: bs) s = s.raise (.outOfBounds .write a) := by
        simp only [storeBytes, memWrite_of_le (Nat.not_lt.1 ha)]
      rw [e]
      refine ⟨rfl, ?_, h, fun c => ?_⟩
      · have e1 : ¬(a + (b :: bs).length ≤ 4096 ∨ b :: bs = []) := by simp; omega
        have e2 : max a 4096 = a := by omega
        rw [if_neg e1, e2]
        rfl
      · have : ¬(a ≤ c ∧ c < a + (b :: bs).length ∧ c < 4096) := by omega
        rw [if_neg this]
        rfl

/-- What `storeBytes` leaves unchanged, in any state. -/
theorem storeBytes_frame : ∀ (bs : List Byte) (a : Nat) (s : State),
    storeBytes a bs s = { s with mem := (storeBytes a bs s).mem, run := (storeBytes a bs s).run }
  | [], _, _ => rfl
  | b :: bs, a, s => by
    simp only [storeBytes, memWrite]
    split
    · rename_i h
      split at h
      · cases h
      · cases h; rfl
    · rename_i h
      split at h
      · cases h
        rw [storeBytes_frame bs (a + 1) (s.storeByte a b)]
        rfl
      · cases h

/-- The run state `storeBytes` leaves, in any state (R205). -/
theorem storeBytes_run : ∀ {bs : List Byte} {a : Nat} {s : State},
    (storeBytes a bs s).run =
      if a + bs.length ≤ 4096 ∨ bs = [] then s.run else .faulted (.outOfBounds .write (max a 4096))
  | [], a, s => by simp [storeBytes]
  | b :: bs, a, s => by
    by_cases ha : a < 4096
    · simp only [storeBytes, memWrite_of_lt ha]
      rw [storeBytes_run]
      cases bs with
      | nil => simp; omega
      | cons b' bs =>
        simp only [List.length_cons, reduceCtorEq, or_false, State.storeByte_run]
        have e1 : max (a + 1) 4096 = max a 4096 := by omega
        have e2 : (a + 1 + (bs.length + 1) ≤ 4096) ↔ (a + (bs.length + 1 + 1) ≤ 4096) := by omega
        simp only [e1, e2]
    · simp only [storeBytes, memWrite_of_le (Nat.not_lt.1 ha)]
      have e1 : ¬(a + (b :: bs).length ≤ 4096 ∨ b :: bs = []) := by simp; omega
      have e2 : max a 4096 = a := by omega
      rw [if_neg e1, e2]
      rfl

/-- What `loadRegs` leaves unchanged (R145). -/
theorem loadRegs_frame : ∀ (rs : List RegIdx) (a : Nat) (s : State),
    loadRegs a rs s = { s with v := (loadRegs a rs s).v, run := (loadRegs a rs s).run }
  | [], _, _ => rfl
  | r :: rs, a, s => by
    simp only [loadRegs]
    split
    · rfl
    · rw [loadRegs_frame rs (a + 1) (s.setReg r _)]
      rfl

/-- The run state `loadRegs` leaves: the fault at the first address outside memory (R205). -/
theorem loadRegs_run : ∀ {rs : List RegIdx} {a : Nat} {s : State},
    (loadRegs a rs s).run =
      if a + rs.length ≤ 4096 ∨ rs = [] then s.run else .faulted (.outOfBounds .read (max a 4096))
  | [], a, s => by simp [loadRegs]
  | r :: rs, a, s => by
    by_cases ha : a < 4096
    · simp only [loadRegs, memRead_of_lt ha]
      rw [loadRegs_run]
      cases rs with
      | nil => simp; omega
      | cons r' rs =>
        simp only [List.length_cons, reduceCtorEq, or_false, State.setReg_run]
        have e1 : max (a + 1) 4096 = max a 4096 := by omega
        have e2 : (a + 1 + (rs.length + 1) ≤ 4096) ↔ (a + (rs.length + 1 + 1) ≤ 4096) := by omega
        simp only [e1, e2]
    · simp only [loadRegs, memRead_of_le (Nat.not_lt.1 ha)]
      have e1 : ¬(a + (r :: rs).length ≤ 4096 ∨ r :: rs = []) := by simp; omega
      have e2 : max a 4096 = a := by omega
      rw [if_neg e1, e2]
      rfl

/-- A register that `loadRegs` is not given keeps its content. -/
theorem loadRegs_reg_of_notMem : ∀ {rs : List RegIdx} {a : Nat} {s : State} {q : RegIdx}, q ∉ rs →
    (loadRegs a rs s).reg q = s.reg q
  | [], _, _, _, _ => rfl
  | r :: rs, a, s, q, h => by
    simp only [List.mem_cons, not_or] at h
    simp only [loadRegs]
    split
    · rfl
    · rw [loadRegs_reg_of_notMem h.2, State.reg_setReg, if_neg h.1]

/-- The `j`-th listed register holds the byte at `a + j`, where that is inside memory (R145). -/
theorem loadRegs_reg_get : ∀ {rs : List RegIdx} {a : Nat} {s : State}, rs.Nodup →
    ∀ (j : Nat) (hj : j < rs.length), (loadRegs a rs s).reg rs[j] =
      if a + j < 4096 then s.mem.get (a + j) else s.reg rs[j]
  | r :: rs, a, s, hnd, j, hj => by
    rw [List.nodup_cons] at hnd
    by_cases ha : a < 4096
    · simp only [loadRegs, memRead_of_lt ha]
      cases j with
      | zero =>
        simp only [List.getElem_cons_zero, Nat.add_zero, if_pos ha]
        rw [loadRegs_reg_of_notMem hnd.1, State.reg_setReg, if_pos rfl]
      | succ j =>
        simp only [List.length_cons, Nat.add_lt_add_iff_right] at hj
        simp only [List.getElem_cons_succ]
        rw [loadRegs_reg_get hnd.2 j hj]
        have hne : rs[j] ≠ r := fun e => hnd.1 (e ▸ List.getElem_mem hj)
        have e1 : a + 1 + j = a + (j + 1) := by omega
        rw [e1, State.setReg_mem, State.reg_setReg, if_neg hne]
    · have : ¬ a + j < 4096 := by omega
      simp only [loadRegs, memRead_of_le (Nat.not_lt.1 ha), if_neg this, State.reg_raise]

/-! ### The register block -/

theorem regBlock_length (x : RegIdx) : (regBlock x).length = x.val + 1 := by
  revert x; decide

theorem regBlock_nodup (x : RegIdx) : (regBlock x).Nodup := by
  revert x; decide

theorem mem_regBlock {x r : RegIdx} : r ∈ regBlock x ↔ r ≤ x := by
  revert x r; decide

theorem regBlock_getElem (x : RegIdx) (j : Nat) (hj : j < (regBlock x).length) :
    ((regBlock x)[j]).val = j := by
  have h : ∀ x : RegIdx, ∀ j : Fin 16, ∀ hj : j.val < (regBlock x).length, ((regBlock x)[j.val]).val = j.val := by
    decide
  have hx := regBlock_length x
  exact h x ⟨j, by omega⟩ hj

/-- The contents of `V0`, ..., `Vx`, by index (R144). -/
theorem regBytes_getD (s : State) (x : RegIdx) {r : RegIdx} (h : r ≤ x) :
    (s.regBytes x).getD r.val 0 = s.reg r := by
  have hl := regBlock_length x
  have hr : r.val < (regBlock x).length := by
    rw [hl]; exact Nat.lt_succ_of_le h
  have e : (regBlock x)[r.val] = r := Fin.ext (regBlock_getElem x r.val hr)
  simp [State.regBytes, List.getD_eq_getElem?_getD, List.getElem?_map, List.getElem?_eq_getElem hr, e]

theorem regBytes_length (s : State) (x : RegIdx) : (s.regBytes x).length = x.val + 1 := by
  simp [State.regBytes, regBlock_length]

theorem bcdDigits_length (b : Byte) : (bcdDigits b).length = 3 := rfl

/-! ### The call stack -/

/-- All that `push` can do (R30). -/
theorem push_of_lt {s : State} {w : Word} (j : Fin 16) (h : s.sp.val = j.val) :
    push s w = .ok { s with stack := s.stack.set j.val w j.isLt, sp := j.succ } := by
  have hlt : s.sp.val < 16 := by omega
  simp only [push, hlt, dif_pos]
  congr 1
  have e : (⟨s.sp.val + 1, Nat.succ_lt_succ hlt⟩ : Fin 17) = j.succ := Fin.ext (by simp [h])
  rw [e]
  simp only [h]

/-- A push onto a full stack (R30). -/
theorem push_of_full {s : State} {w : Word} (h : s.sp.val = 16) :
    push s w = .error (.outOfBounds .stackPush 16) := by
  simp [push, h]

/-- A pop from an empty stack (R31). -/
theorem pop_of_empty {s : State} (h : s.sp.val = 0) : pop s = .error (.outOfBounds .stackPop 0) := by
  have e : s.sp = ⟨0, by omega⟩ := Fin.ext h
  unfold pop
  rw [e]

/-- All that `pop` can do (R31). -/
theorem pop_of_succ {s : State} (j : Fin 16) (h : s.sp.val = j.val + 1) :
    pop s = .ok (s.stack.get j, { s with sp := j.castSucc }) := by
  have e : s.sp = ⟨j.val + 1, by omega⟩ := Fin.ext h
  unfold pop
  rw [e]
  rfl

/-- A pop that succeeds changes `SP` only (R31). -/
theorem pop_frame {s s' : State} {w : Word} (h : pop s = .ok (w, s')) :
    s' = { s with sp := s'.sp } ∧
      ∃ j : Fin 16, s.sp.val = j.val + 1 ∧ s'.sp = j.castSucc ∧ w = s.stack.get j := by
  rcases Nat.eq_zero_or_pos s.sp.val with h0 | h0
  · rw [pop_of_empty h0] at h
    cases h
  · have hl := s.sp.isLt
    have h1 : s.sp.val = (⟨s.sp.val - 1, by omega⟩ : Fin 16).val + 1 := by simp; omega
    rw [pop_of_succ _ h1] at h
    cases h
    exact ⟨rfl, _, h1, rfl, rfl⟩

/-- A push that succeeds changes `SP` and the slot it writes only (R30). -/
theorem push_frame {s s' : State} {w : Word} (h : push s w = .ok s') :
    s' = { s with sp := s'.sp, stack := s'.stack } ∧
      ∀ q : Fin 16, s'.stack.get q = w ∨ s'.stack.get q = s.stack.get q := by
  by_cases h0 : s.sp.val = 16
  · rw [push_of_full h0] at h
    cases h
  · have hl := s.sp.isLt
    rw [push_of_lt ⟨s.sp.val, by omega⟩ rfl] at h
    cases h
    refine ⟨rfl, fun q => ?_⟩
    simp only [Vector.get_eq_getElem, Vector.getElem_set]
    split
    · exact .inl rfl
    · exact .inr rfl

/-! ### Flags, keys, draws -/

@[simp] theorem flagByte_toNat (b : Bool) : (flagByte b).toNat = if b then 1 else 0 := by
  cases b <;> rfl

/-- The key a register names (R188). -/
theorem keyOf_of_lt {b : Byte} (h : b.toNat < 16) : keyOf b = .ok ⟨b.toNat, h⟩ := by
  simp [keyOf, h]

/-- A register that names no key (R188). -/
theorem keyOf_of_le {b : Byte} (h : 16 ≤ b.toNat) : keyOf b = .error (.keyIndexUndefined b) := by
  simp [keyOf, Nat.not_lt.2 h]

theorem zext16_toNat (b : Byte) : (zext16 b).toNat = b.toNat := by
  have := b.isLt
  simp [zext16, BitVec.toNat_setWidth]
  omega

theorem isDown_setKey (s : State) (k j : KeyIdx) (b : Bool) :
    (s.setKey k b).isDown j = if j = k then b else s.isDown j := by
  have hj := j.isLt
  cases b <;> by_cases h : j = k <;> simp [State.isDown, State.setKey, hj, h] <;>
    simp_all [Fin.ext_iff]

/-- All that `writeFlagged` can do to the registers (R120). -/
theorem writeFlagged_asWritten {s : State} {x : RegIdx} {flag result : State → Byte}
    (h : s.vfOrder = .asWritten) :
    s.writeFlagged x flag result = (s.setReg vf (flag s)).setReg x (result (s.setReg vf (flag s))) := by
  simp [State.writeFlagged, h]

/-- The other order (R120). -/
theorem writeFlagged_flagLast {s : State} {x : RegIdx} {flag result : State → Byte}
    (h : s.vfOrder = .flagLast) :
    s.writeFlagged x flag result = (s.setReg x (result s)).setReg vf (flag s) := by
  simp [State.writeFlagged, h]

/-- `writeFlagged` changes nothing but registers. -/
theorem writeFlagged_frame (s : State) (x : RegIdx) (flag result : State → Byte) :
    s.writeFlagged x flag result = { s with v := (s.writeFlagged x flag result).v } := by
  unfold State.writeFlagged
  split <;> rfl

/-- `writeFlagged` writes `Vx` and `VF` only. -/
theorem writeFlagged_reg_of_ne {s : State} {x r : RegIdx} {flag result : State → Byte} (hx : r ≠ x)
    (hf : r ≠ vf) : (s.writeFlagged x flag result).reg r = s.reg r := by
  unfold State.writeFlagged
  split <;> simp [hx, hf]

/-! ### Results as naturals -/

/-- The effective address without an offset is `I` (R54). -/
@[simp] theorem indexAddr_zero (s : State) : s.indexAddr 0 = s.i.toNat := rfl

/-- A 16-bit sum with a zero-extended byte (R109, R141). -/
theorem toNat_add_zext16 (w : Word) (b : Byte) :
    (w + zext16 b).toNat = (w.toNat + b.toNat) % 65536 := by
  rw [BitVec.toNat_add, zext16_toNat]

/-- The fetch advance and the skip, on naturals (R12, R104). -/
theorem word_add_two (w : Word) : w + 2 = BitVec.ofNat 16 (w.toNat + 2) := by
  apply BitVec.eq_of_toNat_eq
  simp [BitVec.toNat_add]

/-- Carry out of bit 7 (R127). -/
theorem carryFlag_toNat (a b : Byte) :
    (carryFlag a b).toNat = if a.toNat + b.toNat > 255 then 1 else 0 := by
  simp [carryFlag]

/-- Not-borrow (R128, R130). -/
theorem notBorrowFlag_toNat (a b : Byte) :
    (notBorrowFlag a b).toNat = if a.toNat ≥ b.toNat then 1 else 0 := by
  simp [notBorrowFlag]

/-- The difference modulo 256 (R12, R128, R130). -/
theorem byte_sub_toNat (a b : Byte) : (a - b).toNat = (a.toNat + 256 - b.toNat) % 256 := by
  have := b.isLt
  rw [BitVec.toNat_sub]
  congr 1
  omega

/-- The right shift by one (R129). -/
theorem byte_shr_toNat (a : Byte) : (a >>> 1).toNat = a.toNat / 2 := by
  simp [BitVec.toNat_ushiftRight, Nat.shiftRight_eq_div_pow]

/-- The bit a right shift takes out (R129). -/
theorem shrFlag_toNat (a : Byte) : (shrFlag a).toNat = a.toNat % 2 := by
  simp [shrFlag, BitVec.toNat_and, Nat.and_one_is_mod]

/-- The left shift by one (R131). -/
theorem byte_shl_toNat (a : Byte) : (a <<< 1).toNat = a.toNat * 2 % 256 := by
  simp [BitVec.toNat_shiftLeft, Nat.shiftLeft_eq]

/-- The bit a left shift takes out (R131). -/
theorem shlFlag_toNat (a : Byte) : (shlFlag a).toNat = a.toNat / 128 := by
  have := a.isLt
  simp [shlFlag, BitVec.toNat_and, Nat.and_one_is_mod, BitVec.toNat_ushiftRight,
    Nat.shiftRight_eq_div_pow]
  omega

/-! ### The framebuffer -/

/-- `is_set` sees coordinates modulo 64 and 32 (R161). -/
theorem isSet_congr (fb : Framebuffer) {x y x' y' : Nat} (hx : x % 64 = x' % 64) (hy : y % 32 = y' % 32) :
    fb.isSet x y = fb.isSet x' y' := by
  have : Fin.ofNat 32 y = Fin.ofNat 32 y' := Fin.ext hy
  simp only [Framebuffer.isSet, hx, this]

/-- The pixel read after one XOR (R162). -/
theorem isSet_xorPixel (fb : Framebuffer) (x y px py : Nat) (bit : Bool) :
    (fb.xorPixel x y bit).isSet px py =
      if px % 64 = x % 64 ∧ py % 32 = y % 32 then fb.isSet px py ^^ bit else fb.isSet px py := by
  have hx := Nat.mod_lt px (show 64 > 0 by omega)
  have hx' := Nat.mod_lt x (show 64 > 0 by omega)
  simp only [Framebuffer.isSet, Framebuffer.xorPixel, Vector.get_eq_getElem, Vector.getElem_set,
    Fin.val_ofNat]
  by_cases hy : py % 32 = y % 32
  · have hy' : y % 32 = py % 32 := hy.symm
    simp only [hy, if_true, and_true, BitVec.getLsbD_xor]
    cases bit
    · simp
    · simp only [if_true, BitVec.getLsbD_twoPow]
      by_cases hpx : px % 64 = x % 64
      · simp [hpx, hx']
      · have hpx' : ¬ x % 64 = px % 64 := fun e => hpx e.symm
        simp [hpx, hpx']
  · have hy' : ¬ y % 32 = py % 32 := fun e => hy e.symm
    simp [hy, hy']

@[simp] theorem isSet_clear (x y : Nat) : Framebuffer.clear.isSet x y = false := by
  simp [Framebuffer.clear, Framebuffer.isSet, Vector.get_eq_getElem]

/-- Two framebuffers with the same pixels are the same. -/
theorem framebuffer_ext {f g : Framebuffer} (h : ∀ x y, f.isSet x y = g.isSet x y) : f = g := by
  apply Vector.ext
  intro j hj
  apply BitVec.eq_of_getLsbD_eq
  intro k hk
  have e := h k j
  have e1 : k % 64 = k := Nat.mod_eq_of_lt hk
  have e2 : j % 32 = j := Nat.mod_eq_of_lt hj
  simpa [Framebuffer.isSet, Vector.get_eq_getElem, e1, e2] using e

end Sys2Proof.Machine
end

