-- ==== Sys2Proof/Laws/Graphics.lean ====
section
/-! SUPPORT. What the sprite blit does to each pixel, and when it reports a collision (R162). -/

namespace Sys2Proof.Machine

/-- Columns 0 to 7 of a row are different pixels: 8 is at most 64 (R162). -/
theorem col_ne {x c d : Nat} (hc : c < 8) (hd : d < 8) (h : c ≠ d) : (x + c) % 64 ≠ (x + d) % 64 := by
  omega

/-- Rows up to 31 of a sprite are different pixels: 15 is below 32 (R162). -/
theorem row_ne {y r q : Nat} (hr : r < 32) (hq : q < 32) (h : r ≠ q) : (y + r) % 32 ≠ (y + q) % 32 := by
  omega

/-! ### Some columns of one row -/

section Columns

variable {x y : Nat} {b : Byte}

/-- A pixel that is none of the row's columns is unchanged. -/
theorem foldl_blitPixel_off {px py : Nat} : ∀ {cs : List Nat} {acc : Bool × Framebuffer},
    (∀ c ∈ cs, ¬(px % 64 = (x + c) % 64 ∧ py % 32 = y % 32)) →
    (cs.foldl (blitPixel x y b) acc).2.isSet px py = acc.2.isSet px py
  | [], _, _ => rfl
  | c :: cs, acc, h => by
    rw [List.foldl_cons, foldl_blitPixel_off fun d hd => h d (List.mem_cons_of_mem _ hd)]
    simp only [blitPixel]
    rw [isSet_xorPixel, if_neg (h c List.mem_cons_self)]

/-- The pixel of column `c` is XORed with bit `c` of the row. -/
theorem foldl_blitPixel_at {c : Nat} : ∀ {cs : List Nat} {acc : Bool × Framebuffer}, c ∈ cs → cs.Nodup →
    (∀ d ∈ cs, d < 8) →
    (cs.foldl (blitPixel x y b) acc).2.isSet (x + c) y = (acc.2.isSet (x + c) y ^^ spriteBit b c)
  | d :: cs, acc, hm, hnd, h8 => by
    rw [List.nodup_cons] at hnd
    rw [List.foldl_cons]
    have hd8 : d < 8 := h8 d List.mem_cons_self
    have hc8 : c < 8 := h8 c hm
    rcases List.mem_cons.1 hm with rfl | hm'
    · rw [foldl_blitPixel_off]
      · simp only [blitPixel]
        rw [isSet_xorPixel, if_pos ⟨rfl, rfl⟩]
      · intro e he hxy
        have hne : c ≠ e := fun q => hnd.1 (q ▸ he)
        exact col_ne hc8 (h8 e (List.mem_cons_of_mem _ he)) hne hxy.1
    · rw [foldl_blitPixel_at hm' hnd.2 fun e he => h8 e (List.mem_cons_of_mem _ he)]
      have hne : c ≠ d := fun q => hnd.1 (q ▸ hm')
      simp only [blitPixel]
      rw [isSet_xorPixel, if_neg fun hxy => col_ne hc8 hd8 hne hxy.1]

/-- Some column of the row collides exactly when its bit is set on a set pixel. -/
theorem foldl_blitPixel_collision : ∀ {cs : List Nat} {acc : Bool × Framebuffer}, cs.Nodup →
    (∀ d ∈ cs, d < 8) →
    ((cs.foldl (blitPixel x y b) acc).1 = true ↔
      acc.1 = true ∨ ∃ c ∈ cs, spriteBit b c = true ∧ acc.2.isSet (x + c) y = true)
  | [], acc, _, _ => by simp
  | d :: cs, acc, hnd, h8 => by
    rw [List.nodup_cons] at hnd
    rw [List.foldl_cons, foldl_blitPixel_collision hnd.2 fun e he => h8 e (List.mem_cons_of_mem _ he)]
    have key : ∀ c ∈ cs, (blitPixel x y b acc d).2.isSet (x + c) y = acc.2.isSet (x + c) y := by
      intro c hc
      have hne : c ≠ d := fun q => hnd.1 (q ▸ hc)
      simp only [blitPixel]
      rw [isSet_xorPixel, if_neg fun hxy =>
        col_ne (h8 c (List.mem_cons_of_mem _ hc)) (h8 d List.mem_cons_self) hne hxy.1]
    have e1 : (blitPixel x y b acc d).1 = true ↔
        acc.1 = true ∨ (spriteBit b d = true ∧ acc.2.isSet (x + d) y = true) := by
      simp [blitPixel]
    rw [e1]
    constructor
    · rintro ((h | h) | ⟨c, hc, h, h'⟩)
      · exact .inl h
      · exact .inr ⟨d, List.mem_cons_self, h⟩
      · exact .inr ⟨c, List.mem_cons_of_mem _ hc, h, key c hc ▸ h'⟩
    · rintro (h | ⟨c, hc, h, h'⟩)
      · exact .inl (.inl h)
      · rcases List.mem_cons.1 hc with rfl | hc
        · exact .inl (.inr ⟨h, h'⟩)
        · exact .inr ⟨c, hc, h, (key c hc).symm ▸ h'⟩

end Columns

/-! ### One row -/

theorem columns_nodup : ([0, 1, 2, 3, 4, 5, 6, 7] : List Nat).Nodup := by decide

theorem mem_columns {c : Nat} : c ∈ ([0, 1, 2, 3, 4, 5, 6, 7] : List Nat) ↔ c < 8 := by
  simp; omega

theorem blitRow_at {x y c : Nat} {b : Byte} {acc : Bool × Framebuffer} (hc : c < 8) :
    (blitRow x y b acc).2.isSet (x + c) y = (acc.2.isSet (x + c) y ^^ spriteBit b c) :=
  foldl_blitPixel_at (mem_columns.2 hc) columns_nodup fun _ hd => mem_columns.1 hd

theorem blitRow_off {x y px py : Nat} {b : Byte} {acc : Bool × Framebuffer}
    (h : ∀ c < 8, ¬(px % 64 = (x + c) % 64 ∧ py % 32 = y % 32)) :
    (blitRow x y b acc).2.isSet px py = acc.2.isSet px py :=
  foldl_blitPixel_off fun c hc => h c (mem_columns.1 hc)

theorem blitRow_collision {x y : Nat} {b : Byte} {acc : Bool × Framebuffer} :
    (blitRow x y b acc).1 = true ↔
      acc.1 = true ∨ ∃ c < 8, spriteBit b c = true ∧ acc.2.isSet (x + c) y = true := by
  unfold blitRow
  rw [foldl_blitPixel_collision columns_nodup fun _ hd => mem_columns.1 hd]
  simp only [mem_columns]

/-! ### The whole sprite -/

/-- A pixel under no bit of the sprite is unchanged (R162). -/
theorem blitRows_off {x px py : Nat} : ∀ {bs : List Byte} {y : Nat} {acc : Bool × Framebuffer},
    (∀ r < bs.length, ∀ c < 8, ¬(px % 64 = (x + c) % 64 ∧ py % 32 = (y + r) % 32)) →
    (blitRows x y bs acc).2.isSet px py = acc.2.isSet px py
  | [], _, _, _ => rfl
  | b :: bs, y, acc, h => by
    simp only [blitRows]
    rw [blitRows_off, blitRow_off]
    · intro c hc
      simpa using h 0 (by simp) c hc
    · intro r hr c hc
      have := h (r + 1) (by simpa using hr) c hc
      rwa [show y + 1 + r = y + (r + 1) by omega]

/-- Pixel `(x + c, y + r)` is XORed with bit `c` of sprite row `r` (R162). -/
theorem blitRows_at {x c : Nat} (hc : c < 8) : ∀ {bs : List Byte} {y r : Nat} {acc : Bool × Framebuffer},
    bs.length ≤ 32 → r < bs.length →
    (blitRows x y bs acc).2.isSet (x + c) (y + r) =
      (acc.2.isSet (x + c) (y + r) ^^ spriteBit (bs.getD r 0) c)
  | b :: bs, y, r, acc, hl, hr => by
    simp only [List.length_cons] at hl hr
    simp only [blitRows]
    cases r with
    | zero =>
      rw [blitRows_off, Nat.add_zero, blitRow_at hc]
      · rfl
      · intro q hq d _ hxy
        omega
    | succ r =>
      rw [show y + (r + 1) = y + 1 + r by omega, blitRows_at hc (by omega) (by omega), blitRow_off]
      · rfl
      · intro d _ hxy
        omega

/-- The blit reports a collision exactly when some 1 bit of the sprite lies on a set pixel (R162). -/
theorem blitRows_collision {x : Nat} : ∀ {bs : List Byte} {y : Nat} {acc : Bool × Framebuffer},
    bs.length ≤ 32 →
    ((blitRows x y bs acc).1 = true ↔ acc.1 = true ∨ ∃ r < bs.length, ∃ c < 8,
      spriteBit (bs.getD r 0) c = true ∧ acc.2.isSet (x + c) (y + r) = true)
  | [], _, acc, _ => by simp [blitRows]
  | b :: bs, y, acc, hl => by
    simp only [List.length_cons] at hl
    simp only [blitRows]
    rw [blitRows_collision (by omega), blitRow_collision]
    have key : ∀ r < bs.length, ∀ c, (blitRow x y b acc).2.isSet (x + c) (y + 1 + r) =
        acc.2.isSet (x + c) (y + 1 + r) := by
      intro r hr c
      exact blitRow_off fun d _ hxy => by omega
    constructor
    · rintro ((h | ⟨c, hc, h, h'⟩) | ⟨r, hr, c, hc, h, h'⟩)
      · exact .inl h
      · exact .inr ⟨0, by simp, c, hc, by simpa using h, by simpa using h'⟩
      · refine .inr ⟨r + 1, by simpa using hr, c, hc, by simpa using h, ?_⟩
        rw [show y + (r + 1) = y + 1 + r by omega, ← key r hr c]
        exact h'
    · rintro (h | ⟨r, hr, c, hc, h, h'⟩)
      · exact .inl (.inl h)
      · cases r with
        | zero => exact .inl (.inr ⟨c, hc, by simpa using h, by simpa using h'⟩)
        | succ r =>
          refine .inr ⟨r, by simpa using hr, c, hc, by simpa using h, ?_⟩
          rw [key r (by simpa using hr) c, show y + 1 + r = y + (r + 1) by omega]
          exact h'

end Sys2Proof.Machine
end

