-- ==== Sys2Proof/Laws/PerInstr.lean ====
section
/-! SUPPORT. Per instruction: the encoded word of a well-formed instruction has its row's fixed bits
(R71, R74, R80). -/

namespace Sys2Proof.Laws.FixedBits

/-- Some row of the opcode map with the instruction's mnemonic matches its encoded word. -/
def Statement (i : Instr) : Prop :=
  WellFormed i → ∃ row ∈ opcodeTable, row.mnemonic = mnemonicOf i ∧ rowMatches (encode i) row = true

theorem cls : Statement .cls := by
  intro _
  exact ⟨⟨"CLS", 0x00E0, 0xFFFF⟩, by decide, rfl, by decide⟩

theorem ret : Statement .ret := by
  intro _
  exact ⟨⟨"RET", 0x00EE, 0xFFFF⟩, by decide, rfl, by decide⟩

theorem jp (nnn : Word) : Statement (.jp nnn) := by
  intro h
  have := addrOk_iff.1 h
  refine ⟨⟨"JP", 0x1000, 0xF000⟩, by decide, rfl, beq_iff_eq.2 ((match_F000 (f := 1) (by omega)).2 ?_)⟩
  simp only [encode]
  rw [encAddr_toNat (by omega) (addrOk_iff.1 h)]
  omega

theorem call (nnn : Word) : Statement (.call nnn) := by
  intro h
  have := addrOk_iff.1 h
  refine ⟨⟨"CALL", 0x2000, 0xF000⟩, by decide, rfl, beq_iff_eq.2 ((match_F000 (f := 2) (by omega)).2 ?_)⟩
  simp only [encode]
  rw [encAddr_toNat (by omega) (addrOk_iff.1 h)]
  omega

theorem seImm (x : RegIdx) (kk : Byte) : Statement (.seImm x kk) := by
  intro _
  have := x.isLt
  have := kk.isLt
  refine ⟨⟨"SE_IMM", 0x3000, 0xF000⟩, by decide, rfl, beq_iff_eq.2 ((match_F000 (f := 3) (by omega)).2 ?_)⟩
  simp only [encode]
  rw [encRegImm_toNat (by omega)]
  omega

theorem sneImm (x : RegIdx) (kk : Byte) : Statement (.sneImm x kk) := by
  intro _
  have := x.isLt
  have := kk.isLt
  refine ⟨⟨"SNE_IMM", 0x4000, 0xF000⟩, by decide, rfl, beq_iff_eq.2 ((match_F000 (f := 4) (by omega)).2 ?_)⟩
  simp only [encode]
  rw [encRegImm_toNat (by omega)]
  omega

theorem seReg (x y : RegIdx) : Statement (.seReg x y) := by
  intro _
  have := x.isLt
  have := y.isLt
  refine ⟨⟨"SE_REG", 0x5000, 0xF00F⟩, by decide, rfl, beq_iff_eq.2 ((match_F00F (f := 5) (n := 0) (by omega) (by omega)).2 ?_)⟩
  simp only [encode]
  rw [encRegReg_toNat (by omega) (by omega)]
  omega

theorem ldImm (x : RegIdx) (kk : Byte) : Statement (.ldImm x kk) := by
  intro _
  have := x.isLt
  have := kk.isLt
  refine ⟨⟨"LD_IMM", 0x6000, 0xF000⟩, by decide, rfl, beq_iff_eq.2 ((match_F000 (f := 6) (by omega)).2 ?_)⟩
  simp only [encode]
  rw [encRegImm_toNat (by omega)]
  omega

theorem addImm (x : RegIdx) (kk : Byte) : Statement (.addImm x kk) := by
  intro _
  have := x.isLt
  have := kk.isLt
  refine ⟨⟨"ADD_IMM", 0x7000, 0xF000⟩, by decide, rfl, beq_iff_eq.2 ((match_F000 (f := 7) (by omega)).2 ?_)⟩
  simp only [encode]
  rw [encRegImm_toNat (by omega)]
  omega

theorem ldReg (x y : RegIdx) : Statement (.ldReg x y) := by
  intro _
  have := x.isLt
  have := y.isLt
  refine ⟨⟨"LD_REG", 0x8000, 0xF00F⟩, by decide, rfl, beq_iff_eq.2 ((match_F00F (f := 8) (n := 0) (by omega) (by omega)).2 ?_)⟩
  simp only [encode]
  rw [encRegReg_toNat (by omega) (by omega)]
  omega

theorem orReg (x y : RegIdx) : Statement (.orReg x y) := by
  intro _
  have := x.isLt
  have := y.isLt
  refine ⟨⟨"OR", 0x8001, 0xF00F⟩, by decide, rfl, beq_iff_eq.2 ((match_F00F (f := 8) (n := 1) (by omega) (by omega)).2 ?_)⟩
  simp only [encode]
  rw [encRegReg_toNat (by omega) (by omega)]
  omega

theorem andReg (x y : RegIdx) : Statement (.andReg x y) := by
  intro _
  have := x.isLt
  have := y.isLt
  refine ⟨⟨"AND", 0x8002, 0xF00F⟩, by decide, rfl, beq_iff_eq.2 ((match_F00F (f := 8) (n := 2) (by omega) (by omega)).2 ?_)⟩
  simp only [encode]
  rw [encRegReg_toNat (by omega) (by omega)]
  omega

theorem xorReg (x y : RegIdx) : Statement (.xorReg x y) := by
  intro _
  have := x.isLt
  have := y.isLt
  refine ⟨⟨"XOR", 0x8003, 0xF00F⟩, by decide, rfl, beq_iff_eq.2 ((match_F00F (f := 8) (n := 3) (by omega) (by omega)).2 ?_)⟩
  simp only [encode]
  rw [encRegReg_toNat (by omega) (by omega)]
  omega

theorem addReg (x y : RegIdx) : Statement (.addReg x y) := by
  intro _
  have := x.isLt
  have := y.isLt
  refine ⟨⟨"ADD_REG", 0x8004, 0xF00F⟩, by decide, rfl, beq_iff_eq.2 ((match_F00F (f := 8) (n := 4) (by omega) (by omega)).2 ?_)⟩
  simp only [encode]
  rw [encRegReg_toNat (by omega) (by omega)]
  omega

theorem sub (x y : RegIdx) : Statement (.sub x y) := by
  intro _
  have := x.isLt
  have := y.isLt
  refine ⟨⟨"SUB", 0x8005, 0xF00F⟩, by decide, rfl, beq_iff_eq.2 ((match_F00F (f := 8) (n := 5) (by omega) (by omega)).2 ?_)⟩
  simp only [encode]
  rw [encRegReg_toNat (by omega) (by omega)]
  omega

theorem shr (x y : RegIdx) : Statement (.shr x y) := by
  intro _
  have := x.isLt
  have := y.isLt
  refine ⟨⟨"SHR", 0x8006, 0xF00F⟩, by decide, rfl, beq_iff_eq.2 ((match_F00F (f := 8) (n := 6) (by omega) (by omega)).2 ?_)⟩
  simp only [encode]
  rw [encRegReg_toNat (by omega) (by omega)]
  omega

theorem subn (x y : RegIdx) : Statement (.subn x y) := by
  intro _
  have := x.isLt
  have := y.isLt
  refine ⟨⟨"SUBN", 0x8007, 0xF00F⟩, by decide, rfl, beq_iff_eq.2 ((match_F00F (f := 8) (n := 7) (by omega) (by omega)).2 ?_)⟩
  simp only [encode]
  rw [encRegReg_toNat (by omega) (by omega)]
  omega

theorem shl (x y : RegIdx) : Statement (.shl x y) := by
  intro _
  have := x.isLt
  have := y.isLt
  refine ⟨⟨"SHL", 0x800E, 0xF00F⟩, by decide, rfl, beq_iff_eq.2 ((match_F00F (f := 8) (n := 14) (by omega) (by omega)).2 ?_)⟩
  simp only [encode]
  rw [encRegReg_toNat (by omega) (by omega)]
  omega

theorem sneReg (x y : RegIdx) : Statement (.sneReg x y) := by
  intro _
  have := x.isLt
  have := y.isLt
  refine ⟨⟨"SNE_REG", 0x9000, 0xF00F⟩, by decide, rfl, beq_iff_eq.2 ((match_F00F (f := 9) (n := 0) (by omega) (by omega)).2 ?_)⟩
  simp only [encode]
  rw [encRegReg_toNat (by omega) (by omega)]
  omega

theorem ldI (nnn : Word) : Statement (.ldI nnn) := by
  intro h
  have := addrOk_iff.1 h
  refine ⟨⟨"LD_I", 0xA000, 0xF000⟩, by decide, rfl, beq_iff_eq.2 ((match_F000 (f := 10) (by omega)).2 ?_)⟩
  simp only [encode]
  rw [encAddr_toNat (by omega) (addrOk_iff.1 h)]
  omega

theorem jpV0 (nnn : Word) : Statement (.jpV0 nnn) := by
  intro h
  have := addrOk_iff.1 h
  refine ⟨⟨"JP_V0", 0xB000, 0xF000⟩, by decide, rfl, beq_iff_eq.2 ((match_F000 (f := 11) (by omega)).2 ?_)⟩
  simp only [encode]
  rw [encAddr_toNat (by omega) (addrOk_iff.1 h)]
  omega

theorem rnd (x : RegIdx) (kk : Byte) : Statement (.rnd x kk) := by
  intro _
  have := x.isLt
  have := kk.isLt
  refine ⟨⟨"RND", 0xC000, 0xF000⟩, by decide, rfl, beq_iff_eq.2 ((match_F000 (f := 12) (by omega)).2 ?_)⟩
  simp only [encode]
  rw [encRegImm_toNat (by omega)]
  omega

theorem drw (x y : RegIdx) (n : Nat) : Statement (.drw x y n) := by
  intro h
  have := x.isLt
  have := y.isLt
  have := heightOk_iff.1 h
  refine ⟨⟨"DRW", 0xD000, 0xF000⟩, by decide, rfl, beq_iff_eq.2 ((match_F000 (f := 13) (by omega)).2 ?_)⟩
  simp only [encode]
  rw [encRegReg_toNat (by omega) (heightOk_iff.1 h)]
  omega

theorem skp (x : RegIdx) : Statement (.skp x) := by
  intro _
  have := x.isLt
  refine ⟨⟨"SKP", 0xE09E, 0xF0FF⟩, by decide, rfl, beq_iff_eq.2 ((match_F0FF (f := 14) (k := 158) (by omega) (by omega)).2 ?_)⟩
  simp only [encode]
  rw [encReg_toNat (by omega) (by omega)]
  omega

theorem sknp (x : RegIdx) : Statement (.sknp x) := by
  intro _
  have := x.isLt
  refine ⟨⟨"SKNP", 0xE0A1, 0xF0FF⟩, by decide, rfl, beq_iff_eq.2 ((match_F0FF (f := 14) (k := 161) (by omega) (by omega)).2 ?_)⟩
  simp only [encode]
  rw [encReg_toNat (by omega) (by omega)]
  omega

theorem ldVxDt (x : RegIdx) : Statement (.ldVxDt x) := by
  intro _
  have := x.isLt
  refine ⟨⟨"LD_VX_DT", 0xF007, 0xF0FF⟩, by decide, rfl, beq_iff_eq.2 ((match_F0FF (f := 15) (k := 7) (by omega) (by omega)).2 ?_)⟩
  simp only [encode]
  rw [encReg_toNat (by omega) (by omega)]
  omega

theorem ldVxK (x : RegIdx) : Statement (.ldVxK x) := by
  intro _
  have := x.isLt
  refine ⟨⟨"LD_VX_K", 0xF00A, 0xF0FF⟩, by decide, rfl, beq_iff_eq.2 ((match_F0FF (f := 15) (k := 10) (by omega) (by omega)).2 ?_)⟩
  simp only [encode]
  rw [encReg_toNat (by omega) (by omega)]
  omega

theorem ldDtVx (x : RegIdx) : Statement (.ldDtVx x) := by
  intro _
  have := x.isLt
  refine ⟨⟨"LD_DT_VX", 0xF015, 0xF0FF⟩, by decide, rfl, beq_iff_eq.2 ((match_F0FF (f := 15) (k := 21) (by omega) (by omega)).2 ?_)⟩
  simp only [encode]
  rw [encReg_toNat (by omega) (by omega)]
  omega

theorem ldStVx (x : RegIdx) : Statement (.ldStVx x) := by
  intro _
  have := x.isLt
  refine ⟨⟨"LD_ST_VX", 0xF018, 0xF0FF⟩, by decide, rfl, beq_iff_eq.2 ((match_F0FF (f := 15) (k := 24) (by omega) (by omega)).2 ?_)⟩
  simp only [encode]
  rw [encReg_toNat (by omega) (by omega)]
  omega

theorem addI (x : RegIdx) : Statement (.addI x) := by
  intro _
  have := x.isLt
  refine ⟨⟨"ADD_I", 0xF01E, 0xF0FF⟩, by decide, rfl, beq_iff_eq.2 ((match_F0FF (f := 15) (k := 30) (by omega) (by omega)).2 ?_)⟩
  simp only [encode]
  rw [encReg_toNat (by omega) (by omega)]
  omega

theorem ldF (x : RegIdx) : Statement (.ldF x) := by
  intro _
  have := x.isLt
  refine ⟨⟨"LD_F", 0xF029, 0xF0FF⟩, by decide, rfl, beq_iff_eq.2 ((match_F0FF (f := 15) (k := 41) (by omega) (by omega)).2 ?_)⟩
  simp only [encode]
  rw [encReg_toNat (by omega) (by omega)]
  omega

theorem ldB (x : RegIdx) : Statement (.ldB x) := by
  intro _
  have := x.isLt
  refine ⟨⟨"LD_B", 0xF033, 0xF0FF⟩, by decide, rfl, beq_iff_eq.2 ((match_F0FF (f := 15) (k := 51) (by omega) (by omega)).2 ?_)⟩
  simp only [encode]
  rw [encReg_toNat (by omega) (by omega)]
  omega

theorem ldMemVx (x : RegIdx) : Statement (.ldMemVx x) := by
  intro _
  have := x.isLt
  refine ⟨⟨"LD_MEM_VX", 0xF055, 0xF0FF⟩, by decide, rfl, beq_iff_eq.2 ((match_F0FF (f := 15) (k := 85) (by omega) (by omega)).2 ?_)⟩
  simp only [encode]
  rw [encReg_toNat (by omega) (by omega)]
  omega

theorem ldVxMem (x : RegIdx) : Statement (.ldVxMem x) := by
  intro _
  have := x.isLt
  refine ⟨⟨"LD_VX_MEM", 0xF065, 0xF0FF⟩, by decide, rfl, beq_iff_eq.2 ((match_F0FF (f := 15) (k := 101) (by omega) (by omega)).2 ?_)⟩
  simp only [encode]
  rw [encReg_toNat (by omega) (by omega)]
  omega

end Sys2Proof.Laws.FixedBits
end

