-- ==== Sys2Proof/Laws/Step.lean ====
section
/-! SUPPORT. What events, delivery, the cycle and the step can do, each said once (R70, R201, R206,
R219). -/

namespace Sys2Proof.Machine

/-! ### Events -/

@[simp] theorem applyEvents_nil (s : State) : s.applyEvents [] = s := rfl

@[simp] theorem applyEvents_cons (s : State) (e : Event) (es : List Event) :
    s.applyEvents (e :: es) = (s.applyEvent e).applyEvents es := rfl

/-- A faulted machine ignores an event (R201). -/
theorem applyEvent_of_faulted {s : State} {f : Fault} (h : s.run = .faulted f) (e : Event) :
    s.applyEvent e = s := by
  simp [State.applyEvent, h]

/-- A tick (R215). -/
theorem applyEvent_tick {s : State} (h : ∀ f, s.run ≠ .faulted f) : s.applyEvent .tick = s.tick := by
  unfold State.applyEvent
  split
  · exact absurd ‹_› (h _)
  all_goals rfl

/-- A key release (R213). -/
theorem applyEvent_keyUp {s : State} (h : ∀ f, s.run ≠ .faulted f) (k : KeyIdx) :
    s.applyEvent (.keyUp k) = s.setKey k false := by
  unfold State.applyEvent
  split
  · exact absurd ‹_› (h _)
  all_goals rfl

/-- A key press while the machine runs (R212). -/
theorem applyEvent_keyDown_running {s : State} (h : s.run = .running) (k : KeyIdx) :
    s.applyEvent (.keyDown k) = s.setKey k true := by
  simp [State.applyEvent, State.keyDown, h]

/-- A key press while the machine waits (R212, R184). -/
theorem applyEvent_keyDown_waiting {s : State} {x : RegIdx} (h : s.run = .waitingKey x) (k : KeyIdx) :
    s.applyEvent (.keyDown k) =
      ((s.setKey k true).setReg x (BitVec.ofNat 8 k.val)).setRun .running := by
  simp [State.applyEvent, State.keyDown, h]

/-- An event changes registers, timers, keys and the run state only (R207). -/
theorem applyEvent_frame (s : State) (e : Event) :
    s.applyEvent e = { s with
      v := (s.applyEvent e).v, dt := (s.applyEvent e).dt, st := (s.applyEvent e).st,
      key := (s.applyEvent e).key, run := (s.applyEvent e).run } := by
  unfold State.applyEvent
  split
  · rfl
  all_goals
    cases e
    · rfl
    · simp only [State.keyDown]; split <;> rfl
    · rfl

/-- So do several events (R207). -/
theorem applyEvents_frame : ∀ (es : List Event) (s : State),
    s.applyEvents es = { s with
      v := (s.applyEvents es).v, dt := (s.applyEvents es).dt, st := (s.applyEvents es).st,
      key := (s.applyEvents es).key, run := (s.applyEvents es).run }
  | [], _ => rfl
  | e :: es, s => by
    rw [applyEvents_cons, applyEvents_frame es, applyEvent_frame s e]

/-- No event faults a machine or starts a wait. -/
theorem applyEvent_run (s : State) (e : Event) :
    (s.applyEvent e).run = s.run ∨ (s.applyEvent e).run = .running := by
  unfold State.applyEvent
  split
  · exact .inl rfl
  all_goals
    cases e
    · exact .inl rfl
    · simp only [State.keyDown]
      split
      · exact .inr rfl
      · exact .inl rfl
      · exact .inl rfl
    · exact .inl rfl

/-- Several events neither fault a machine nor start a wait. -/
theorem applyEvents_run : ∀ (es : List Event) (s : State),
    (s.applyEvents es).run = s.run ∨ (s.applyEvents es).run = .running
  | [], _ => .inl rfl
  | e :: es, s => by
    rw [applyEvents_cons]
    rcases applyEvents_run es (s.applyEvent e) with h | h
    · rw [h]
      exact applyEvent_run s e
    · exact .inr h

/-! ### Delivery -/

/-- Delivery neither faults a machine nor starts a wait. -/
theorem deliver_run (s : State) : s.deliver.run = s.run ∨ s.deliver.run = .running := by
  unfold State.deliver
  split
  · exact .inl rfl
  · exact applyEvents_run _ _

theorem deliver_nil {s : State} (h : s.schedule = []) : s.deliver = s := by
  simp [State.deliver, h]

theorem deliver_cons {s : State} {es : List Event} {rest : List (List Event)}
    (h : s.schedule = es :: rest) :
    s.deliver = ({ s with schedule := rest } : State).applyEvents es := by
  simp [State.deliver, h]

/-- Delivery leaves `I`, `PC`, the stack, memory, the framebuffer and the other inputs alone
(R207). -/
theorem deliver_frame (s : State) :
    s.deliver = { s with
      v := s.deliver.v, dt := s.deliver.dt, st := s.deliver.st, key := s.deliver.key,
      run := s.deliver.run, schedule := s.deliver.schedule } := by
  unfold State.deliver
  split
  · rfl
  · rw [applyEvents_frame]

@[simp] theorem deliver_mem (s : State) : s.deliver.mem = s.mem := by rw [deliver_frame]

@[simp] theorem deliver_pc (s : State) : s.deliver.pc = s.pc := by rw [deliver_frame]

@[simp] theorem deliver_i (s : State) : s.deliver.i = s.i := by rw [deliver_frame]

@[simp] theorem deliver_sp (s : State) : s.deliver.sp = s.sp := by rw [deliver_frame]

@[simp] theorem deliver_stack (s : State) : s.deliver.stack = s.stack := by rw [deliver_frame]

@[simp] theorem deliver_fb (s : State) : s.deliver.fb = s.fb := by rw [deliver_frame]

/-! ### The cycle and the step -/

/-- The decoder always answers on a word. -/
theorem decodeWord_ne_truncated (op : Word) : decodeWord op ≠ .truncated := by
  unfold decodeWord decode0 decode8 decodeE decodeF
  repeat' split
  all_goals simp

/-- A fetch outside memory (R52, R70). -/
theorem cycle_of_fetch_fault {s : State} (h : 4096 ≤ s.pc.toNat + 1) :
    cycle s = .next (s.raise (.outOfBounds .fetch s.pc.toNat)) := by
  simp [cycle, fetchWord_of_le h]

/-- A fetched instruction runs with `PC` advanced (R70). -/
theorem cycle_of_instr {s : State} {i : Instr} (h : s.pc.toNat + 1 < 4096)
    (hd : decodeWord (wordOf (s.mem.get s.pc.toNat) (s.mem.get (s.pc.toNat + 1))) = .instr i) :
    cycle s = exec i s.advance := by
  simp [cycle, fetchWord_of_lt h, hd]

/-- A fetched unknown word only advances `PC` (R88). -/
theorem cycle_of_unknown {s : State} (h : s.pc.toNat + 1 < 4096)
    (hd : ∀ i, decodeWord (wordOf (s.mem.get s.pc.toNat) (s.mem.get (s.pc.toNat + 1))) ≠ .instr i) :
    cycle s = .next s.advance := by
  simp only [cycle, fetchWord_of_lt h]
  split
  · exact absurd ‹_› (hd _)
  · rfl
  · rfl

/-- All that a cycle can do (R70, R88). -/
theorem cycle_cases (s : State) :
    (4096 ≤ s.pc.toNat + 1 ∧ cycle s = .next (s.raise (.outOfBounds .fetch s.pc.toNat))) ∨
    (s.pc.toNat + 1 < 4096 ∧ cycle s = .next s.advance) ∨
    (s.pc.toNat + 1 < 4096 ∧ ∃ i,
      decodeWord (wordOf (s.mem.get s.pc.toNat) (s.mem.get (s.pc.toNat + 1))) = .instr i ∧
      cycle s = exec i s.advance) := by
  by_cases h : s.pc.toNat + 1 < 4096
  · by_cases hd : ∃ i, decodeWord (wordOf (s.mem.get s.pc.toNat) (s.mem.get (s.pc.toNat + 1))) = .instr i
    · obtain ⟨i, hi⟩ := hd
      exact .inr (.inr ⟨h, i, hi, cycle_of_instr h hi⟩)
    · exact .inr (.inl ⟨h, cycle_of_unknown h fun i hi => hd ⟨i, hi⟩⟩)
  · exact .inl ⟨by omega, cycle_of_fetch_fault (by omega)⟩

theorem step_of_running {s : State} (h : s.deliver.run = .running) : step s = cycle s.deliver := by
  simp [step, h]

theorem step_of_waiting {s : State} {x : RegIdx} (h : s.deliver.run = .waitingKey x) :
    step s = .next s.deliver := by
  simp [step, h]

theorem step_of_faulted {s : State} {f : Fault} (h : s.deliver.run = .faulted f) : step s = .fault f := by
  simp [step, h]

/-- All that a step can do (R70, R201, R219). -/
theorem step_cases (s : State) :
    (s.deliver.run = .running ∧ step s = cycle s.deliver) ∨
    (∃ x, s.deliver.run = .waitingKey x ∧ step s = .next s.deliver) ∨
    (∃ f, s.deliver.run = .faulted f ∧ step s = .fault f) := by
  cases h : s.deliver.run with
  | running => exact .inl ⟨rfl, step_of_running h⟩
  | waitingKey x => exact .inr (.inl ⟨x, rfl, step_of_waiting h⟩)
  | faulted f => exact .inr (.inr ⟨f, rfl, step_of_faulted h⟩)

end Sys2Proof.Machine
end

