-- ==== Sys2Proof/Tests/Slice0.lean ====
section
/-! SUPPORT. Tests: the well-formedness smoke, words written out from the spec's patterns, one step of
each instruction against the vectors of 95_test_vectors.md (named in each comment), and for every
obligation with hypotheses a concrete state and operands that meet them all. -/

namespace Sys2Proof.Tests

open Sys2Proof.Machine

/-! ### Helpers -/

/-- Registers set one after another. -/
def withRegs (s : State) (rs : List (RegIdx × Byte)) : State :=
  rs.foldl (fun t p => t.setReg p.1 p.2) s

/-- The launch state with registers set and bytes placed at `PC = a`. -/
def launchAt (a : Nat) (code : List Byte) (rs : List (RegIdx × Byte)) : State :=
  withRegs { State.reset with mem := Memory.putBytes [] a code, pc := BitVec.ofNat 16 a } rs

/-- The state after one instruction step, if there is one. -/
def stepped (s : State) : Option State :=
  match step s with
  | .next t => some t
  | .fault _ => none
  | .refused _ => none

/-- The state after executing one instruction, if there is one. -/
def ran (i : Instr) (s : State) : Option State :=
  match exec i s with
  | .next t => some t
  | .fault _ => none
  | .refused _ => none

/-- The registers after one step of a word at 0x200. -/
def regsAfter (hi lo : Byte) (rs : List (RegIdx × Byte)) (qs : List RegIdx) : Option (List Byte) :=
  (stepped (launchAt 0x200 [hi, lo] rs)).map fun t => qs.map t.reg

/-- The registers after executing `i`, with the other value of `VF_ORDER` too. -/
def bothOrders (i : Instr) (rs : List (RegIdx × Byte)) (qs : List RegIdx) :
    Option (List Byte) × Option (List Byte) :=
  ((ran i (withRegs State.reset rs)).map fun t => qs.map t.reg,
   (ran i (withRegs { State.reset with vfOrder := .flagLast } rs)).map fun t => qs.map t.reg)

/-- `PC` after one step of a word at `a`. -/
def pcAfter (a : Nat) (hi lo : Byte) (rs : List (RegIdx × Byte)) : Option Nat :=
  (stepped (launchAt a [hi, lo] rs)).map fun t => t.pc.toNat

/-- `s` with `I` set and bytes placed there. -/
def withData (s : State) (a : Nat) (bs : List Byte) : State :=
  { s with i := BitVec.ofNat 16 a, mem := s.mem.putBytes a bs }

/-- `s` with that many stack slots occupied. -/
def withSp (s : State) (n : Fin 17) : State := { s with sp := n }

/-! ### Well-formedness smoke -/

theorem test_wf_accepts_largest :
    WellFormed (.jp 0xFFF) ∧ WellFormed (.call 0xFFF) ∧ WellFormed (.ldI 0xFFF) ∧
    WellFormed (.jpV0 0xFFF) ∧ WellFormed (.drw 15 15 15) := by decide

theorem test_wf_refuses_long_jp : ¬ WellFormed (.jp 0x1000) := by decide

theorem test_wf_refuses_long_call : ¬ WellFormed (.call 0x1000) := by decide

theorem test_wf_refuses_long_ldI : ¬ WellFormed (.ldI 0xFFFF) := by decide

theorem test_wf_refuses_long_jpV0 : ¬ WellFormed (.jpV0 0x1000) := by decide

theorem test_wf_refuses_tall_sprite : ¬ WellFormed (.drw 0 0 16) := by decide

/-! ### Decoding: words written out bit by bit from R74 and R80 -/

/-- Format FIXED and ADDR. -/
theorem test_decode_addr :
    decodeWord 0b0000000011100000 = .instr .cls ∧
    decodeWord 0b0000000011101110 = .instr .ret ∧
    decodeWord 0b0001101010111100 = .instr (.jp 0xABC) ∧
    decodeWord 0b0010001000010000 = .instr (.call 0x210) ∧
    decodeWord 0b1010001100000000 = .instr (.ldI 0x300) ∧
    decodeWord 0b1011111111111111 = .instr (.jpV0 0xFFF) := by decide

/-- Format REG_IMM. -/
theorem test_decode_reg_imm :
    decodeWord 0b0011010100000110 = .instr (.seImm 5 6) ∧
    decodeWord 0b0100111110000001 = .instr (.sneImm 15 0x81) ∧
    decodeWord 0b0110101000111100 = .instr (.ldImm 10 0x3C) ∧
    decodeWord 0b0111001000001010 = .instr (.addImm 2 10) ∧
    decodeWord 0b1100001100001111 = .instr (.rnd 3 0x0F) := by decide

/-- Format REG_REG, the comparisons, and REG_REG_N. -/
theorem test_decode_reg_reg :
    decodeWord 0b0101000100100000 = .instr (.seReg 1 2) ∧
    decodeWord 0b1001111000010000 = .instr (.sneReg 14 1) ∧
    decodeWord 0b1101000100100101 = .instr (.drw 1 2 5) := by decide

/-- Format REG_REG, the 0x8 family. -/
theorem test_decode_alu :
    decodeWord 0b1000000101010000 = .instr (.ldReg 1 5) ∧
    decodeWord 0b1000000101010001 = .instr (.orReg 1 5) ∧
    decodeWord 0b1000000101010010 = .instr (.andReg 1 5) ∧
    decodeWord 0b1000000101010011 = .instr (.xorReg 1 5) ∧
    decodeWord 0b1000000101010100 = .instr (.addReg 1 5) ∧
    decodeWord 0b1000000101010101 = .instr (.sub 1 5) ∧
    decodeWord 0b1000000101010110 = .instr (.shr 1 5) ∧
    decodeWord 0b1000000101010111 = .instr (.subn 1 5) ∧
    decodeWord 0b1000000101011110 = .instr (.shl 1 5) := by decide

/-- Format REG, the 0xE and 0xF families. -/
theorem test_decode_reg :
    decodeWord 0b1110010110011110 = .instr (.skp 5) ∧
    decodeWord 0b1110010110100001 = .instr (.sknp 5) ∧
    decodeWord 0b1111010100000111 = .instr (.ldVxDt 5) ∧
    decodeWord 0b1111001100001010 = .instr (.ldVxK 3) ∧
    decodeWord 0b1111101000010101 = .instr (.ldDtVx 10) ∧
    decodeWord 0b1111000100011000 = .instr (.ldStVx 1) ∧
    decodeWord 0b1111001000011110 = .instr (.addI 2) ∧
    decodeWord 0b1111010000101001 = .instr (.ldF 4) ∧
    decodeWord 0b1111000000110011 = .instr (.ldB 0) ∧
    decodeWord 0b1111001101010101 = .instr (.ldMemVx 3) ∧
    decodeWord 0b1111111101100101 = .instr (.ldVxMem 15) := by decide

/-- Vectors E1 to E8: unknown words. -/
theorem test_decode_unknown :
    decodeWord 0x0000 = .unknown 0x0000 ∧ decodeWord 0x0123 = .unknown 0x0123 ∧
    decodeWord 0x5121 = .unknown 0x5121 ∧ decodeWord 0x9125 = .unknown 0x9125 ∧
    decodeWord 0x8128 = .unknown 0x8128 ∧ decodeWord 0xE1FF = .unknown 0xE1FF ∧
    decodeWord 0xF175 = .unknown 0xF175 ∧ decodeWord 0x00FF = .unknown 0x00FF := by decide

/-- The host's two entry points on one word. -/
theorem test_table_word :
    decodeTableWord 16 0x8124 = some (.addReg 1 2) ∧ decodeTableWord 16 0x8128 = none ∧
    stepped (State.reset.withFetchWord 16 0x6A3C) =
      ran (.ldImm 10 0x3C) (State.reset.withFetchWord 16 0x6A3C).advance := by decide

/-! ### The cycle -/

/-- Vectors E1, E7: an unknown word only advances. -/
theorem test_unknown_is_noop :
    stepped (launchAt 0x200 [0xF1, 0x75] [(1, 3)]) = some (launchAt 0x200 [0xF1, 0x75] [(1, 3)]).advance := by
  decide

/-- Vector E9: an odd `PC`. -/
theorem test_odd_pc :
    (stepped (launchAt 0x201 [0x61, 0x05] [])).map (fun t => (t.reg 1, t.pc)) = some (5, 0x203) := by decide

/-- Vectors E10, E11: the last fetchable address and the first that is not. -/
theorem test_fetch_bounds :
    (stepped (launchAt 0xFFE [] [])).map (fun t => (t.pc, t.run)) = some (0x1000, .running) ∧
    (stepped (launchAt 0xFFF [] [])).map (fun t => (t.pc, t.run)) =
      some (0xFFF, .faulted (.outOfBounds .fetch 0xFFF)) := by decide

/-! ### Control flow -/

/-- Vector F1. -/
theorem test_call :
    (stepped (launchAt 0x204 [0x22, 0x10] [])).map (fun t => (t.pc, t.sp, t.stack.get 0)) =
      some (0x210, 1, 0x206) := by decide

/-- Vector F4. -/
theorem test_call_full :
    (stepped (withSp (launchAt 0x300 [0x24, 0x00] []) 16)).map (fun t => (t.pc, t.sp, t.run)) =
      some (0x302, 16, .faulted (.outOfBounds .stackPush 16)) := by decide

/-- Vector F2: the popped slot keeps its content. -/
theorem test_ret :
    (stepped { launchAt 0x212 [0x00, 0xEE] [] with sp := 1, stack := (Vector.replicate 16 0).set 0 0x206 }).map
      (fun t => (t.pc, t.sp, t.stack.get 0)) = some (0x206, 0, 0x206) := by decide

/-- Vector F3. -/
theorem test_ret_empty :
    (stepped (launchAt 0x212 [0x00, 0xEE] [])).map (fun t => (t.pc, t.sp, t.run)) =
      some (0x214, 0, .faulted (.outOfBounds .stackPop 0)) := by decide

/-- Vectors F5, F6. -/
theorem test_jp : pcAfter 0x200 0x1A 0xBC [] = some 0xABC ∧ pcAfter 0x200 0x12 0x00 [] = some 0x200 := by
  decide

/-- Vectors F8, F9, F18. -/
theorem test_seImm :
    pcAfter 0x208 0x30 0x05 [(0, 5)] = some 0x20C ∧ pcAfter 0x208 0x30 0x05 [(0, 4)] = some 0x20A ∧
    pcAfter 0x200 0x3F 0x00 [] = some 0x204 := by decide

/-- Vectors F10, F11. -/
theorem test_sneImm :
    pcAfter 0x208 0x40 0x05 [(0, 5)] = some 0x20A ∧ pcAfter 0x208 0x40 0x05 [(0, 4)] = some 0x20C := by
  decide

/-- Vector F12, and E3's registers with equal and unequal contents. -/
theorem test_seReg :
    pcAfter 0x200 0x53 0x30 [(3, 9)] = some 0x204 ∧
    pcAfter 0x200 0x51 0x20 [(1, 7), (2, 8)] = some 0x202 := by decide

/-- Vector F13, and E4's registers with the right low nibble. -/
theorem test_sneReg :
    pcAfter 0x200 0x93 0x30 [(3, 9)] = some 0x202 ∧
    pcAfter 0x200 0x91 0x20 [(1, 7), (2, 8)] = some 0x204 := by decide

/-- Vectors F15, F16, F17. -/
theorem test_jpV0 :
    pcAfter 0x200 0xB3 0x00 [(0, 4)] = some 0x304 ∧ pcAfter 0x200 0xBF 0xFF [(0, 0xFF)] = some 0x10FE ∧
    pcAfter 0x200 0xB5 0x00 [(0, 1), (5, 0x40)] = some 0x501 := by decide

/-! ### Register loads and arithmetic -/

/-- Vector A1. -/
theorem test_ldImm : regsAfter 0x6A 0x3C [] [10] = some [0x3C] := by decide

/-- Vectors A2, A3. -/
theorem test_addImm :
    regsAfter 0x72 0x0A [(2, 250), (15, 7)] [2, 15] = some [4, 7] ∧
    regsAfter 0x7F 0x01 [(15, 0xFF)] [15] = some [0] := by decide

/-- Vector A4. -/
theorem test_ldReg : regsAfter 0x81 0x50 [(5, 0x12)] [1, 5] = some [0x12, 0x12] := by decide

/-- Vector A5. -/
theorem test_orReg : regsAfter 0x80 0x11 [(0, 0xF0), (1, 0x0C), (15, 7)] [0, 15] = some [0xFC, 7] := by
  decide

/-- Vector A6. -/
theorem test_andReg : regsAfter 0x80 0x12 [(0, 0xF0), (1, 0x3C)] [0] = some [0x30] := by decide

/-- Vectors A7, A8. -/
theorem test_xorReg :
    regsAfter 0x80 0x13 [(0, 0xF0), (1, 0x3C)] [0] = some [0xCC] ∧
    regsAfter 0x80 0x03 [(0, 0x55)] [0] = some [0] := by decide

/-- Vectors S5, A9, A10, A11. -/
theorem test_addReg :
    regsAfter 0x81 0x24 [(1, 200), (2, 100)] [1, 15] = some [44, 1] ∧
    regsAfter 0x81 0x24 [(1, 0xFF), (2, 0)] [1, 15] = some [0xFF, 0] ∧
    regsAfter 0x81 0x24 [(1, 0xFF), (2, 1)] [1, 15] = some [0, 1] ∧
    regsAfter 0x81 0x14 [(1, 0x80)] [1, 15] = some [0, 1] := by decide

/-- Vectors X1, X2, X3. -/
theorem test_addReg_vf :
    bothOrders (.addReg 15 15) [(15, 0x80)] [15] = (some [1], some [1]) ∧
    bothOrders (.addReg 15 1) [(15, 0xFF), (1, 1)] [15] = (some [1], some [1]) ∧
    bothOrders (.addReg 1 15) [(1, 0xFF), (15, 1)] [1, 15] = (some [0, 1], some [0, 1]) := by decide

/-- Vectors S7, S8, A12. -/
theorem test_sub :
    regsAfter 0x81 0x25 [(1, 5), (2, 10)] [1, 15] = some [251, 0] ∧
    regsAfter 0x81 0x25 [(1, 10), (2, 5)] [1, 15] = some [5, 1] ∧
    regsAfter 0x81 0x25 [(1, 7), (2, 7)] [1, 15] = some [0, 1] := by decide

/-- Vectors X4 to X7. -/
theorem test_sub_vf :
    bothOrders (.sub 15 1) [(15, 3), (1, 5)] [15] = (some [251], some [0]) ∧
    bothOrders (.sub 15 1) [(15, 7), (1, 5)] [15] = (some [252], some [1]) ∧
    bothOrders (.sub 1 15) [(1, 10), (15, 3)] [1, 15] = (some [9, 1], some [7, 1]) ∧
    bothOrders (.sub 15 15) [(15, 9)] [15] = (some [0], some [1]) := by decide

/-- Vectors A14, A15. -/
theorem test_shr :
    regsAfter 0x83 0x06 [(3, 5)] [3, 15] = some [2, 1] ∧
    regsAfter 0x83 0x76 [(3, 4), (7, 0xFF)] [3, 15] = some [2, 0] := by decide

/-- Vectors X8, X9. -/
theorem test_shr_vf :
    bothOrders (.shr 15 1) [(15, 5)] [15] = (some [0], some [1]) ∧
    bothOrders (.shr 15 1) [(15, 4)] [15] = (some [0], some [0]) := by decide

/-- Vectors A16, A17. -/
theorem test_subn :
    regsAfter 0x81 0x27 [(1, 10), (2, 5)] [1, 15] = some [251, 0] ∧
    regsAfter 0x81 0x27 [(1, 5), (2, 10)] [1, 15] = some [5, 1] := by decide

/-- Vectors X10, X11, X12. -/
theorem test_subn_vf :
    bothOrders (.subn 15 1) [(15, 3), (1, 5)] [15] = (some [4], some [1]) ∧
    bothOrders (.subn 1 15) [(1, 3), (15, 10)] [1, 15] = (some [254, 1], some [7, 1]) ∧
    bothOrders (.subn 15 15) [(15, 9)] [15] = (some [0], some [1]) := by decide

/-- Vectors A18, A19. -/
theorem test_shl :
    regsAfter 0x83 0x0E [(3, 0x81)] [3, 15] = some [2, 1] ∧
    regsAfter 0x83 0x0E [(3, 0x40)] [3, 15] = some [0x80, 0] := by decide

/-- Vectors X13, X14. -/
theorem test_shl_vf :
    bothOrders (.shl 15 1) [(15, 0x81)] [15] = (some [2], some [1]) ∧
    bothOrders (.shl 15 1) [(15, 0x41)] [15] = (some [0], some [0]) := by decide

/-! ### Index register and memory -/

/-- Vector M1. -/
theorem test_ldI : (stepped (launchAt 0x200 [0xA3, 0x00] [])).map (fun t => t.i) = some 0x300 := by decide

/-- Vectors M3, M4. -/
theorem test_addI :
    (ran (.addI 0) (withRegs { State.reset with i := 0xFFF } [(0, 1)])).map (fun t => (t.i, t.reg 15)) =
      some (0x1000, 0) ∧
    (ran (.addI 0) (withRegs { State.reset with i := 0xFFFF } [(0, 1)])).map (fun t => t.i) =
      some 0 := by decide

/-- Vectors S13, M7. -/
theorem test_ldF :
    (ran (.ldF 4) (withRegs State.reset [(4, 0xA)])).map (fun t => t.i) = some 50 ∧
    (ran (.ldF 0) (withRegs State.reset [(0, 0xFF)])).map (fun t => t.i) = some 1275 := by decide

/-- Vectors S11, M12 (over the font). -/
theorem test_ldB :
    (ran (.ldB 0) (withData (withRegs State.reset [(0, 195)]) 0x300 [])).map
      (fun t => (t.mem.get 0x300, t.mem.get 0x301, t.mem.get 0x302, t.i)) = some (1, 9, 5, 0x300) ∧
    (ran (.ldB 0) (withRegs State.reset [(0, 0xAB)])).map
      (fun t => (t.mem.get 0, t.mem.get 1, t.mem.get 2, t.mem.get 3)) = some (1, 7, 1, 0x90) := by decide

/-- Vector M11: the digits before the fault are stored. -/
theorem test_ldB_fault :
    (ran (.ldB 0) (withData (withRegs State.reset [(0, 123)]) 0xFFE [])).map
      (fun t => (t.mem.get 0xFFE, t.mem.get 0xFFF, t.run)) =
      some (1, 2, .faulted (.outOfBounds .write 0x1000)) := by decide

/-- Vector M13. -/
theorem test_ldMemVx :
    (ran (.ldMemVx 2) (withData (withRegs State.reset [(0, 1), (1, 2), (2, 3), (3, 4)]) 0x300 [])).map
      (fun t => (t.mem, t.i)) = some ([(0x300, 1), (0x301, 2), (0x302, 3)], 0x300) := by decide

/-- Vector M15's fault, with the last two bytes of memory. -/
theorem test_ldMemVx_fault :
    (ran (.ldMemVx 15) (withData (withRegs State.reset [(0, 8), (1, 9), (2, 7)]) 0xFFE [])).map
      (fun t => (t.mem, t.run)) =
      some ([(0xFFE, 8), (0xFFF, 9)], .faulted (.outOfBounds .write 0x1000)) := by decide

/-- Vector M16. -/
theorem test_ldVxMem :
    (ran (.ldVxMem 2) (withData (withRegs State.reset [(3, 4)]) 0x300 [1, 9, 5, 6])).map
      (fun t => (t.reg 0, t.reg 1, t.reg 2, t.reg 3, t.i)) = some (1, 9, 5, 4, 0x300) := by decide

/-- Vector M17, and a load that faults after one register. -/
theorem test_ldVxMem_fault :
    (ran (.ldVxMem 0) (withRegs { State.reset with i := 0x1000 } [(0, 3)])).map
      (fun t => (t.reg 0, t.run)) = some (3, .faulted (.outOfBounds .read 0x1000)) ∧
    (ran (.ldVxMem 1) (withData (withRegs State.reset [(0, 3), (1, 4)]) 0xFFF [7])).map
      (fun t => (t.reg 0, t.reg 1, t.run)) = some (7, 4, .faulted (.outOfBounds .read 0x1000)) := by decide

/-! ### Graphics -/

/-- Vector G1. -/
theorem test_cls :
    (ran .cls (withRegs { State.reset with fb := Vector.replicate 32 5 } [(15, 5)])).map
      (fun t => (t.fb, t.reg 15)) = some (Vector.replicate 32 0, 5) := by decide

/-- Vectors G6, G11, G8: both wraps, `VF` as a coordinate, no rows. -/
theorem test_drw :
    (ran (.drw 1 2 2) (withData (withRegs State.reset [(1, 62), (2, 31)]) 0x300 [0xC3, 0x81])).map
      (fun t => (t.fb.get 31, t.fb.get 0, t.reg 15)) =
      some (0xC000000000000030, 0x4000000000000020, 0) ∧
    (ran (.drw 15 0 1) (withData (withRegs State.reset [(15, 10)]) 0x300 [0x80])).map
      (fun t => (t.fb.get 0, t.reg 15)) = some (0x400, 0) ∧
    (ran (.drw 0 1 0) (withRegs State.reset [(15, 7)])).map (fun t => (t.fb, t.reg 15)) =
      some (Vector.replicate 32 0, 0) := by decide

/-- Vectors G10, G9, G12: a collision, a 0 bit on a set pixel, a read outside memory. -/
theorem test_drw_flags :
    (ran (.drw 0 1 1) (withData { State.reset with fb := (Vector.replicate 32 0).set 0 2 } 0x300 [0xC0])).map
      (fun t => (t.fb.get 0, t.reg 15)) = some (1, 1) ∧
    (ran (.drw 0 1 1) (withData { State.reset with fb := (Vector.replicate 32 0).set 0 1 } 0x300 [0])).map
      (fun t => (t.fb.get 0, t.reg 15)) = some (1, 0) ∧
    (ran (.drw 0 0 2) (withRegs { State.reset with i := 0xFFF } [(15, 3)])).map
      (fun t => (t.fb, t.reg 15, t.run)) =
      some (Vector.replicate 32 0, 3, .faulted (.outOfBounds .read 0x1000)) := by decide

/-! ### Random byte, keypad, timers -/

/-- Vector K1; the drawn byte is consumed. -/
theorem test_rnd :
    (ran (.rnd 3 0x0F) { State.reset with rand := [0xB7, 0x5A] }).map
      (fun t => (t.reg 3, t.rand, t.draws)) = some (0x07, [0x5A], 0) := by decide

/-- Past the listed inputs the byte is free; the machine goes on and counts the draw. -/
theorem test_rnd_free :
    (ran (.rnd 3 0x0F) State.reset).map (fun t => (t.rand, t.draws, t.run)) = some ([], 1, .running) := by
  decide

/-- Vectors K4, K5, K7. -/
theorem test_skp :
    (ran (.skp 0) (withRegs { State.reset with key := 0x20, pc := 0x20E } [(0, 5)])).map (fun t => t.pc) =
      some 0x210 ∧
    (ran (.skp 0) (withRegs { State.reset with pc := 0x20E } [(0, 5)])).map (fun t => t.pc) =
      some 0x20E ∧
    ran (.skp 0) (withRegs State.reset [(0, 0x10)]) =
      some ((withRegs State.reset [(0, 0x10)]).setRun (.faulted (.keyIndexUndefined 0x10))) := by decide

/-- Vectors K6, K8. -/
theorem test_sknp :
    (ran (.sknp 0) (withRegs { State.reset with pc := 0x20E } [(0, 5)])).map (fun t => t.pc) =
      some 0x210 ∧
    (ran (.sknp 0) (withRegs State.reset [(0, 0xFF)])).map (fun t => t.run) =
      some (.faulted (.keyIndexUndefined 0xFF)) := by decide

/-- Vector K9. -/
theorem test_ldVxK :
    (stepped (launchAt 0x20A [0xF3, 0x0A] [])).map (fun t => (t.run, t.pc)) =
      some (.waitingKey 3, 0x20C) ∧
    (ran (.ldVxK 3) State.reset).map
      (fun t => ((t.applyEvent (.keyDown 0xB)).reg 3, (t.applyEvent (.keyDown 0xB)).key,
        (t.applyEvent (.keyDown 0xB)).run)) = some (0x0B, 0x800, .running) := by decide

/-- Vector K10: a release does not end the wait. -/
theorem test_ldVxK_release :
    (ran (.ldVxK 3) { State.reset with key := 4 }).map
      (fun t => ((t.applyEvent (.keyUp 2)).key, (t.applyEvent (.keyUp 2)).run)) =
      some (0, .waitingKey 3) := by decide

/-- Vector K12. -/
theorem test_ldVxDt : (ran (.ldVxDt 5) { State.reset with dt := 0x2A }).map (fun t => t.reg 5) =
    some 0x2A := by decide

/-- Vector K13. -/
theorem test_ldDtVx : (ran (.ldDtVx 10) (withRegs State.reset [(10, 60)])).map (fun t => (t.dt, t.st)) =
    some (60, 0) := by decide

/-- Vectors K14, K15. -/
theorem test_ldStVx :
    (ran (.ldStVx 1) (withRegs State.reset [(1, 2)])).map (fun t => (t.st, t.soundActive)) =
      some (2, true) ∧
    (ran (.ldStVx 1) { State.reset with st := 5 }).map (fun t => (t.st, t.soundActive)) =
      some (0, false) := by decide

/-! ### Events -/

/-- Vectors T1, T2, T3. -/
theorem test_tick :
    ({ State.reset with dt := 2, st := 1 } : State).applyEvent .tick = { State.reset with dt := 1 } ∧
    State.reset.applyEvent .tick = State.reset ∧
    ({ State.reset with st := 3 } : State).applyEvent .tick = { State.reset with st := 2 } := by decide

/-- Vectors T4, T5. -/
theorem test_keys :
    State.reset.applyEvent (.keyDown 4) = { State.reset with key := 0x10 } ∧
    ({ State.reset with key := 0x10 } : State).applyEvent (.keyUp 4) = State.reset := by decide

/-- Vectors T6, T7. -/
theorem test_event_run_states :
    (({ State.reset with dt := 3, run := .faulted (.outOfBounds .fetch 0xFFF) } : State).applyEvents
      [.tick, .keyDown 1]).dt = 3 ∧
    (({ State.reset with dt := 3, run := .faulted (.outOfBounds .fetch 0xFFF) } : State).applyEvents
      [.tick, .keyDown 1]).key = 0 ∧
    (({ State.reset with key := 0x40, run := .waitingKey 0 } : State).applyEvent (.keyDown 6)).reg 0 = 6 ∧
    (({ State.reset with key := 0x40, run := .waitingKey 0 } : State).applyEvent (.keyDown 6)).run =
      .running := by decide

/-- One step with two due events before its cycle (R206): the key press ends the wait and the cycle
then runs `Ex9E`. -/
theorem test_events_before_cycle :
    (stepped { launchAt 0x20C [0xE0, 0x9E] [] with
      run := .waitingKey 0, dt := 4, schedule := [[.tick, .keyDown 7], [.tick]] }).map
      (fun t => (t.pc, t.reg 0, t.dt, t.schedule)) = some (0x210, 7, 3, [[.tick]]) := by decide

/-! ### Witnesses: states and operands that meet the hypotheses of the obligations -/

theorem witness_DecodeOfEncodeGivesTheInstruction :
    WellFormed (.drw 15 0 15) ∧ WellFormed (.jp 0) ∧ WellFormed (.ldI 0xFFF) := by decide

theorem witness_EncodeOfDecodeGivesTheWord : decodeWord 0xD12F = .instr (.drw 1 2 15) := by decide

theorem witness_DecoderSelectsTheOneMatchingRow :
    decodeWord 0x00EE = .instr .ret ∧ ∀ i, decodeWord 0x00EF ≠ .instr i := by
  refine ⟨by decide, fun i h => ?_⟩
  rw [show decodeWord 0x00EF = .unknown 0x00EF by decide] at h
  cases h

/-- At the last fetchable address. -/
theorem witness_StepExecutesTheFetchedInstruction :
    (launchAt 0xFFE [0x6A, 0x3C] []).deliver.run = .running ∧
    (launchAt 0xFFE [0x6A, 0x3C] []).pc.toNat + 1 < 4096 ∧
    (0x6A3C : Word).toNat =
      ((launchAt 0xFFE [0x6A, 0x3C] []).mem.get (launchAt 0xFFE [0x6A, 0x3C] []).pc.toNat).toNat * 256 +
      ((launchAt 0xFFE [0x6A, 0x3C] []).mem.get
        ((launchAt 0xFFE [0x6A, 0x3C] []).pc.toNat + 1)).toNat ∧
    decodeWord 0x6A3C = .instr (.ldImm 10 0x3C) := by decide

theorem witness_DueEventsAreAppliedInOrder :
    State.reset.schedule = [] ∧
    ({ State.reset with schedule := [[], [.tick]] } : State).schedule = [] :: [[.tick]] ∧
    ({ State.reset with schedule := [[.tick, .keyUp 3], []] } : State).schedule =
      (.tick :: [.keyUp 3]) :: [[]] ∧
    ({ State.reset with schedule := [[.tick, .keyUp 3], []] } : State).schedule =
      ([.tick] ++ [.keyUp 3]) :: [[]] := by decide

theorem witness_UnknownOpcodeOnlyAdvances :
    (launchAt 0xFFE [0xF1, 0x75] []).deliver.run = .running ∧
    (launchAt 0xFFE [0xF1, 0x75] []).pc.toNat + 1 < 4096 ∧
    (0xF175 : Word).toNat =
      ((launchAt 0xFFE [0xF1, 0x75] []).mem.get (launchAt 0xFFE [0xF1, 0x75] []).pc.toNat).toNat * 256 +
      ((launchAt 0xFFE [0xF1, 0x75] []).mem.get
        ((launchAt 0xFFE [0xF1, 0x75] []).pc.toNat + 1)).toNat ∧
    ∀ row ∈ opcodeTable, (0xF175 : Word) &&& row.mask ≠ row.fixed := by decide

/-- One byte inside memory, and none. -/
theorem witness_FetchOutsideMemoryFaults :
    ((launchAt 0xFFF [] []).deliver.run = .running ∧ (launchAt 0xFFF [] []).pc.toNat + 1 ≥ 4096) ∧
    (launchAt 0x10FE [] []).deliver.run = .running ∧ (launchAt 0x10FE [] []).pc.toNat + 1 ≥ 4096 := by
  decide

theorem witness_FaultIsFinal :
    ({ State.reset with run := .faulted (.keyIndexUndefined 16) } : State).run =
      .faulted (.keyIndexUndefined 16) := by decide

/-- Each family of faults at its boundary, none beside it, and a step that faults. -/
theorem witness_InstructionsRaiseExactlyTheirFaults :
    faultOf .ret State.reset = some (.outOfBounds .stackPop 0) ∧
    faultOf (.ldMemVx 1) { State.reset with i := 0xFFF } = some (.outOfBounds .write 0x1000) ∧
    faultOf (.ldMemVx 0) { State.reset with i := 0xFFF } = none ∧
    faultOf (.drw 0 0 0) { State.reset with i := 0xFFFF } = none ∧
    (stepped (launchAt 0x1000 [] [])).map (fun t => t.run) =
      some (.faulted (.outOfBounds .fetch 0x1000)) := by decide

theorem witness_KeyWaitHoldsUntilKeyDown :
    (ran (.ldVxK 3) State.reset).map (fun t => t.run) = some (.waitingKey 3) ∧
    ({ State.reset with run := .waitingKey 3 } : State).schedule = [] ∧
    ({ State.reset with run := .waitingKey 3, schedule := [[.tick, .keyUp 2], []] } : State).schedule =
      [.tick, .keyUp 2] :: [[]] ∧ ∀ k, Event.keyDown k ∉ [Event.tick, .keyUp 2] := by decide

theorem witness_KeyDownSetsKeyAndEndsWait :
    State.reset.run = .running ∧
    ({ State.reset with run := .waitingKey 15 } : State).run = .waitingKey 15 := by decide

theorem witness_KeyUpClearsItsKeyOnly : ∀ f, State.reset.run ≠ .faulted f := fun _ h => nomatch h

theorem witness_TicksCountTimersDownToZero :
    (∀ f, ({ State.reset with run := .waitingKey 0, dt := 255 } : State).run ≠ .faulted f) ∧
    (∃ t, exec (.ldDtVx 0) State.reset = .next t) ∧ (∀ x, (Instr.ldDtVx 0) ≠ .ldStVx x) ∧
    ∃ t, exec .cls State.reset = .next t :=
  ⟨(fun _ h => nomatch h), ⟨_, rfl⟩, (fun _ h => nomatch h), ⟨_, rfl⟩⟩

theorem witness_EventsTouchOnlyKeysTimersAndTheWaitingRegister :
    ∀ r, r ≠ 3 → ({ State.reset with run := .waitingKey 3 } : State).run ≠ .waitingKey r := by decide

theorem witness_ReturnPopsIntoPc :
    (withSp State.reset 1).sp.val = (0 : Fin 16).val + 1 ∧
    (withSp State.reset 16).sp.val = (15 : Fin 16).val + 1 ∧ (withSp State.reset 0).sp.val = 0 := by decide

theorem witness_CallPushesPcAndJumps :
    (withSp State.reset 0).sp.val = (0 : Fin 16).val ∧
    (withSp State.reset 15).sp.val = (15 : Fin 16).val ∧ (withSp State.reset 16).sp.val = 16 := by decide

theorem witness_PushThenPopGivesBack :
    (withSp State.reset 15).sp.val < 16 ∧ (withSp State.reset 14).sp.val ≤ 14 := by decide

/-- The largest 12-bit target. -/
theorem witness_JumpsWriteAbsoluteTargets : (0xFFF : Word).toNat < 4096 := by decide

/-- Every clause on the operands of SUB and SUBN, in both orders. -/
theorem witness_SubSetsNotBorrow :
    (1 : RegIdx) ≠ 15 ∧ (14 : RegIdx) ≠ 15 ∧ State.reset.vfOrder = .asWritten ∧
    ({ State.reset with vfOrder := .flagLast } : State).vfOrder = .flagLast := by decide

theorem witness_VfOrderMattersOnlyWhenVfIsAnOperand :
    (∀ x y, Instr.sub 14 0 = .sub x y ∨ Instr.sub 14 0 = .shr x y ∨ Instr.sub 14 0 = .subn x y ∨
      Instr.sub 14 0 = .shl x y → x ≠ 15 ∧ y ≠ 15) ∧
    (∃ t, exec (.sub 14 0) { State.reset with vfOrder := .asWritten } = .next t) ∧
    ∃ u, exec (.sub 14 0) { State.reset with vfOrder := .flagLast } = .next u :=
  ⟨fun _ _ h => by rcases h with h | h | h | h <;> cases h; decide, ⟨_, rfl⟩, ⟨_, rfl⟩⟩

/-- `I` where all three digits fit, and where two, one and none do. -/
theorem witness_BcdDigitsAreStored :
    State.reset.mem.wf = true ∧ (0xFFD : Word).toNat + 2 < 4096 ∧
    ((0xFFE : Word).toNat + 2 ≥ 4096 ∧ (0xFFE : Word).toNat + 1 < 4096) ∧
    ((0xFFF : Word).toNat + 2 ≥ 4096 ∧ (0xFFF : Word).toNat < 4096) ∧
    (0x1000 : Word).toNat + 2 ≥ 4096 := by decide

/-- The last block that fits and the first that does not. -/
theorem witness_RegisterBlockIsStored :
    State.reset.mem.wf = true ∧ (0xFF0 : Word).toNat + (15 : RegIdx).val < 4096 ∧
    (0xFF1 : Word).toNat + (15 : RegIdx).val ≥ 4096 ∧ (14 : RegIdx) ≤ 15 ∧
    (0xFF1 : Word).toNat + (14 : RegIdx).val < 4096 := by decide

theorem witness_RegisterBlockIsLoaded :
    (0xFFF : Word).toNat + (0 : RegIdx).val < 4096 ∧ (0xFFF : Word).toNat + (1 : RegIdx).val ≥ 4096 := by
  decide

theorem witness_StoreThenLoadRestoresRegisters :
    (withData State.reset 0xFF0 []).mem.wf = true ∧
    (withData State.reset 0xFF0 []).i.toNat + (15 : RegIdx).val < 4096 := by decide

/-- Program P7's store, with `PC` at the stored bytes. -/
theorem witness_StoredBytesAreFetchedNext :
    ∃ s : State, s.mem.wf = true ∧ s.run = .running ∧ s.schedule = [] ∧ 1 ≤ (1 : RegIdx).val ∧
      s.pc = s.i ∧ s.i.toNat + (1 : RegIdx).val < 4096 ∧ (∃ t, exec (.ldMemVx 1) s = .next t) ∧
      decodeWord (wordOf (s.reg 0) (s.reg 1)) = .instr (.ldImm 10 0x42) :=
  ⟨withRegs { State.reset with i := 0x20A, pc := 0x20A } [(0, 0x6A), (1, 0x42)],
    by decide, by decide, by decide, by decide, by decide, by decide, ⟨_, rfl⟩, by decide⟩

/-- No rows; the last sprite that fits; a row and column over and a pixel away from it. -/
theorem witness_DrawXorsTheSprite :
    15 < 16 ∧ (0xFF1 : Word).toNat + 15 ≤ 4096 ∧ (14 < 15 ∧ 7 < 8) ∧
    ∀ row < 15, ∀ col < 8, ¬(63 = (0 + col) % 64 ∧ 31 = (0 + row) % 32) := by decide

theorem witness_DrawOutsideMemoryFaultsUndrawn :
    0 < 15 ∧ ({ State.reset with i := 0xFF2 } : State).i.toNat + 15 > 4096 ∧
    0 < 1 ∧ ({ State.reset with i := 0x1000 } : State).i.toNat + 1 > 4096 := by decide

/-- Coordinates that are not `VF`, and `VF` as a coordinate that the first draw leaves as it was. -/
theorem witness_DrawingTwiceRestoresTheFramebuffer :
    (∃ s t u : State, 5 < 16 ∧ s.i.toNat + 5 ≤ 4096 ∧ exec (.drw 0 1 5) s = .next t ∧
      t.reg 0 = s.reg 0 ∧ t.reg 1 = s.reg 1 ∧ exec (.drw 0 1 5) t = .next u) ∧
    ∃ s t u : State, 5 < 16 ∧ s.i.toNat + 5 ≤ 4096 ∧ exec (.drw 15 1 5) s = .next t ∧
      t.reg 15 = s.reg 15 ∧ t.reg 1 = s.reg 1 ∧ exec (.drw 15 1 5) t = .next u :=
  ⟨⟨State.reset, _, _, by decide, by decide, rfl, by decide, by decide, rfl⟩,
    ⟨State.reset, _, _, by decide, by decide, rfl, by decide, by decide, rfl⟩⟩

theorem witness_RandomByteIsMasked :
    ({ State.reset with rand := [0xB7, 1] } : State).rand = 0xB7 :: [1] ∧ State.reset.rand = [] ∧
    (0x0F : Byte).getLsbD 7 = false := by decide

theorem witness_KeySkipsReadTheKeypad :
    ((withRegs State.reset [(0, 15)]).reg 0).toNat = (15 : KeyIdx).val ∧
    ((withRegs State.reset [(0, 16)]).reg 0).toNat > 0xF := by decide

theorem witness_OnlyListedRegistersChange :
    (∃ t, exec (.drw 0 1 1) State.reset = .next t) ∧ (14 : RegIdx) ∉ regsWritten (.drw 0 1 1) :=
  ⟨⟨_, rfl⟩, by decide⟩

theorem witness_OnlyTwoInstructionsStore :
    (∃ t, exec (.ldVxMem 3) State.reset = .next t) ∧ (∀ x, Instr.ldVxMem 3 ≠ .ldB x) ∧
    ∀ x, Instr.ldVxMem 3 ≠ .ldMemVx x := ⟨⟨_, rfl⟩, by decide, by decide⟩

theorem witness_OnlyClearAndDrawChangePixels :
    (∃ t, exec (.call 0x300) State.reset = .next t) ∧ Instr.call 0x300 ≠ .cls ∧
    ∀ x y n, Instr.call 0x300 ≠ .drw x y n := ⟨⟨_, rfl⟩, by decide, (fun _ _ _ h => nomatch h)⟩

theorem witness_OnlyCallAndReturnTouchTheStack :
    (∃ t, exec .ret (withSp State.reset 1) = .next t) ∧ (∀ nnn, Instr.ret ≠ .call nnn) ∧
    (∃ t, exec .cls State.reset = .next t) ∧ Instr.cls ≠ .ret :=
  ⟨⟨_, rfl⟩, (fun _ h => nomatch h), ⟨_, rfl⟩, by decide⟩

theorem witness_OnlyThreeInstructionsWriteI :
    (∃ t, exec (.ldMemVx 3) State.reset = .next t) ∧ (∀ nnn, Instr.ldMemVx 3 ≠ .ldI nnn) ∧
    (∀ x, Instr.ldMemVx 3 ≠ .addI x) ∧ ∀ x, Instr.ldMemVx 3 ≠ .ldF x :=
  ⟨⟨_, rfl⟩, (fun _ h => nomatch h), by decide, by decide⟩

theorem witness_OnlyControlFlowWritesPc :
    (∃ t, exec (.ldB 3) State.reset = .next t) ∧ writesPc (.ldB 3) = false := ⟨⟨_, rfl⟩, by decide⟩

theorem witness_StepKeepsMemoryCanonical :
    (launchAt 0x200 [0xF1, 0x33] []).memCanonical = true ∧
    ∃ t, step (launchAt 0x200 [0xF1, 0x33] []) = .next t := ⟨by decide, ⟨_, rfl⟩⟩

theorem witness_ResetMemoryIsCanonical :
    State.reset.memCanonical = true ∧ ∃ t, State.reset.load [0x22, 0x00] = some t :=
  ⟨by decide, ⟨_, rfl⟩⟩

/-- `PC` at the bound, reached by vector F16. -/
theorem witness_StepKeepsPcBounded :
    (launchAt 0x200 [0xBF, 0xFF] [(0, 0xFF)]).PcBounded ∧
    ∃ t, step (launchAt 0x200 [0xBF, 0xFF] [(0, 0xFF)]) = .next t ∧ t.pc = 0x10FE :=
  ⟨by decide, _, rfl, by decide⟩

theorem witness_ResetPcIsBounded :
    ∃ t, State.launch (Vector.replicate 80 0) .flagLast [0x12, 0x00] = some t := ⟨_, rfl⟩

theorem witness_LoadPlacesTheImage :
    State.reset.mem.wf = true ∧ (List.replicate 3584 (1 : Byte)).length ≤ 3584 ∧
    (List.replicate 3585 (1 : Byte)).length > 3584 :=
  ⟨by decide, le_of_eq List.length_replicate,
    lt_of_lt_of_eq (by decide : 3584 < 3585) List.length_replicate.symm⟩

/-- Program P1's end: a jump to itself at `PC`. -/
theorem witness_EndedRunStaysUnchanged :
    (launchAt 0x20C [0x12, 0x0C] []).ended = true ∧
    (launchAt 0x20C [0x12, 0x0C] []).schedule = [] := by decide

theorem witness_StoredFetchWordRuns :
    State.reset.mem.wf = true ∧ 0x6A3C < 65536 ∧ decodeTableWord 16 0x6A3C = some (.ldImm 10 0x3C) ∧
    decodeTableWord 16 0xFFFF = none := by decide

end Sys2Proof.Tests
end

section
/-! Events and delivery: the events due before a step are applied in order and are then gone (R6,
R206). -/

namespace Sys2Proof.Machine

theorem applyEvents_append (s : State) (es fs : List Event) :
    s.applyEvents (es ++ fs) = (s.applyEvents es).applyEvents fs :=
  List.foldl_append

/-- Settles O7: `deliver` applies the first list of the schedule, and `applyEvents` follows that
list's constructors and its concatenation. -/
theorem dueEventsAreAppliedInOrder : Obligations.DueEventsAreAppliedInOrder := by
  unfold Obligations.DueEventsAreAppliedInOrder
  refine ⟨applyEvents_nil, applyEvents_cons, fun _ => deliver_nil,
    ?emptyList, ?firstEvent, ?twoParts⟩
  case emptyList =>
    intro s rest h
    rw [deliver_cons h, applyEvents_nil]
  case firstEvent =>
    intro s e es rest h
    rw [deliver_cons h, applyEvents_cons]
  case twoParts =>
    intro s es fs rest h
    rw [deliver_cons h, applyEvents_append]

end Sys2Proof.Machine
end

section
/-! What an instruction can change (R23): its effect on the state, said once for all instructions, and
the frames of registers, `I`, `PC` and the call stack that follow from it. -/

namespace Sys2Proof.Machine

/-- Where `PC` goes under an instruction that skips or jumps (R102, R104, R109). -/
inductive BranchTarget (s : State) : Instr → Word → Prop
  | fallThrough (i : Instr) : BranchTarget s i s.pc
  | skip (i : Instr) : BranchTarget s i (s.pc + 2)
  | absolute (nnn : Word) : BranchTarget s (.jp nnn) nnn
  | offsetByV0 (nnn : Word) : BranchTarget s (.jpV0 nnn) (nnn + zext16 (s.reg 0))

/-- What an instruction can do to a state, by the columns of R23 it writes. A fault is a change of
`RUN` only, so it counts as a change of `devices`. -/
inductive ExecEffect (s : State) : Instr → State → Prop
  /-- Registers change, no other than the listed ones, perhaps with pixels or a random draw. -/
  | registers {i : Instr} {t : State} (kept : ∀ r, r ∉ regsWritten i → t.reg r = s.reg r)
      (frame : t = { s with
        v := t.v, fb := t.fb, run := t.run, rand := t.rand, draws := t.draws }) : ExecEffect s i t
  /-- Memory, timers, pixels or the run state change. -/
  | devices {i : Instr} {t : State}
      (frame : t = { s with dt := t.dt, st := t.st, mem := t.mem, fb := t.fb, run := t.run }) :
      ExecEffect s i t
  /-- `I` is written. -/
  | index {i : Instr} (w : Word)
      (writer : (∃ nnn, i = .ldI nnn) ∨ (∃ x, i = .addI x) ∨ ∃ x, i = .ldF x) :
      ExecEffect s i (s.setI w)
  /-- `PC` is written, the call stack is not. -/
  | branch {i : Instr} {w : Word} (writer : writesPc i = true) (target : BranchTarget s i w) :
      ExecEffect s i (s.setPc w)
  | ret {w : Word} {s' : State} (popped : pop s = .ok (w, s')) : ExecEffect s .ret (s'.setPc w)
  | call {nnn : Word} {s' : State} (pushed : push s s.pc = .ok s') :
      ExecEffect s (.call nnn) (s'.setPc nnn)

/-! ### The effect of each shape of meaning -/

/-- A write of a listed register leaves the registers off the list alone. -/
theorem reg_setReg_of_notMem {s : State} {x r : RegIdx} {l : List RegIdx} (b : Byte) (hx : x ∈ l)
    (hr : r ∉ l) : (s.setReg x b).reg r = s.reg r := by
  rw [State.reg_setReg, if_neg (ne_of_mem_of_not_mem hx hr).symm]

section Shapes

variable {s : State} {i : Instr}

theorem ExecEffect.raise (f : Fault) : ExecEffect s i (s.raise f) := .devices rfl

theorem ExecEffect.setReg {x : RegIdx} (b : Byte) (h : x ∈ regsWritten i) :
    ExecEffect s i (s.setReg x b) :=
  .registers (fun _ hr => reg_setReg_of_notMem b h hr) rfl

theorem ExecEffect.writeFlagged {x : RegIdx} (flag result : State → Byte)
    (h : regsWritten i = [x, vf]) : ExecEffect s i (s.writeFlagged x flag result) := by
  refine .registers (fun r hr => ?_) ?_
  · simp only [h, List.mem_cons, List.not_mem_nil, or_false, not_or] at hr
    exact writeFlagged_reg_of_ne hr.1 hr.2
  · rw [writeFlagged_frame]

theorem ExecEffect.skipIf (c : Bool) (h : writesPc i = true) : ExecEffect s i (s.skipIf c) := by
  cases c
  · exact .branch h (.fallThrough i)
  · exact .branch h (.skip i)

theorem ExecEffect.storeBytes (a : Nat) (bs : List Byte) : ExecEffect s i (storeBytes a bs s) :=
  .devices (by rw [storeBytes_frame])

end Shapes

/-! ### The effect of the meanings that branch -/

theorem execRet_effect {s t : State} (h : execRet s = .next t) : ExecEffect s .ret t := by
  unfold execRet at h
  split at h <;> cases h
  · exact .raise _
  · exact .ret ‹_›

theorem execCall_effect {s t : State} {nnn : Word} (h : execCall nnn s = .next t) :
    ExecEffect s (.call nnn) t := by
  unfold execCall at h
  split at h <;> cases h
  · exact .raise _
  · exact .call ‹_›

theorem execSkp_effect {s t : State} {x : RegIdx} (h : execSkp x s = .next t) :
    ExecEffect s (.skp x) t := by
  unfold execSkp at h
  split at h <;> cases h
  · exact .raise _
  · exact .skipIf _ rfl

theorem execSknp_effect {s t : State} {x : RegIdx} (h : execSknp x s = .next t) :
    ExecEffect s (.sknp x) t := by
  unfold execSknp at h
  split at h <;> cases h
  · exact .raise _
  · exact .skipIf _ rfl

theorem execDrw_effect {s t : State} {x y : RegIdx} {n : Nat} (h : execDrw x y n s = .next t) :
    ExecEffect s (.drw x y n) t := by
  unfold execDrw at h
  split at h <;> cases h
  · exact .raise _
  · exact .registers (fun _ hr => reg_setReg_of_notMem _ List.mem_cons_self hr) rfl

theorem execAddReg_effect {s t : State} {x y : RegIdx} (h : execAddReg x y s = .next t) :
    ExecEffect s (.addReg x y) t := by
  cases h
  refine .registers (fun r hr => ?_) rfl
  have hx : x ∈ regsWritten (.addReg x y) := List.mem_cons_self
  have hvf : vf ∈ regsWritten (.addReg x y) := List.mem_cons_of_mem _ List.mem_cons_self
  rw [reg_setReg_of_notMem _ hvf hr, reg_setReg_of_notMem _ hx hr]

theorem execRnd_effect {s t : State} {x : RegIdx} {kk : Byte} (h : execRnd x kk s = .next t) :
    ExecEffect s (.rnd x kk) t := by
  cases h
  refine .registers (fun r hr => ?_) ?_
  · rw [reg_setReg_of_notMem _ List.mem_cons_self hr, State.reg_draw]
  · unfold State.draw
    split <;> rfl

theorem execLdVxMem_effect {s t : State} {x : RegIdx} (h : execLdVxMem x s = .next t) :
    ExecEffect s (.ldVxMem x) t := by
  cases h
  exact .registers (fun r hr => loadRegs_reg_of_notMem hr) (by rw [loadRegs_frame])

/-- All that an instruction can do (R23). -/
theorem exec_effect {i : Instr} {s t : State} (h : exec i s = .next t) : ExecEffect s i t := by
  cases i with
  | ret => exact execRet_effect h
  | call nnn => exact execCall_effect h
  | skp x => exact execSkp_effect h
  | sknp x => exact execSknp_effect h
  | drw x y n => exact execDrw_effect h
  | addReg x y => exact execAddReg_effect h
  | rnd x kk => exact execRnd_effect h
  | ldVxMem x => exact execLdVxMem_effect h
  | jp nnn => cases h; exact .branch rfl (.absolute nnn)
  | jpV0 nnn => cases h; exact .branch rfl (.offsetByV0 nnn)
  | seImm | sneImm | seReg | sneReg => cases h; exact .skipIf _ rfl
  | ldImm | addImm | ldReg | orReg | andReg | xorReg | ldVxDt =>
    cases h; exact .setReg _ List.mem_cons_self
  | sub | shr | subn | shl => cases h; exact .writeFlagged _ _ rfl
  | ldI nnn => cases h; exact .index _ (.inl ⟨nnn, rfl⟩)
  | addI x => cases h; exact .index _ (.inr (.inl ⟨x, rfl⟩))
  | ldF x => cases h; exact .index _ (.inr (.inr ⟨x, rfl⟩))
  | ldB | ldMemVx => cases h; exact .storeBytes _ _
  | cls | ldVxK | ldDtVx | ldStVx => cases h; exact .devices rfl

/-! ### What an instruction leaves unchanged -/

/-- Settles O45: by the effect of the instruction; only `registers` changes a register. -/
theorem onlyListedRegistersChange : Obligations.OnlyListedRegistersChange := by
  unfold Obligations.OnlyListedRegistersChange
  intro i s t h r hr
  cases exec_effect h with
  | registers kept => exact kept r hr
  | devices frame => rw [frame]; rfl
  | index => rfl
  | branch => rfl
  | ret popped => rw [(pop_frame popped).1]; rfl
  | call pushed => rw [(push_frame pushed).1]; rfl

/-- Settles O48: by the effect of the instruction; only `ret` and `call` change `SP` or a slot. -/
theorem onlyCallAndReturnTouchTheStack : Obligations.OnlyCallAndReturnTouchTheStack := by
  unfold Obligations.OnlyCallAndReturnTouchTheStack
  intro i s t h hcall
  cases exec_effect h with
  | registers _ frame => rw [frame]; exact ⟨rfl, fun _ => rfl⟩
  | devices frame => rw [frame]; exact ⟨rfl, fun _ => rfl⟩
  | index => exact ⟨rfl, fun _ => rfl⟩
  | branch => exact ⟨rfl, fun _ => rfl⟩
  | ret popped => rw [(pop_frame popped).1]; exact ⟨rfl, fun hret => absurd rfl hret⟩
  | call => exact absurd rfl (hcall _)

/-- Settles O49: by the effect of the instruction; only `index` changes `I`. -/
theorem onlyThreeInstructionsWriteI : Obligations.OnlyThreeInstructionsWriteI := by
  unfold Obligations.OnlyThreeInstructionsWriteI
  intro i s t h hldI haddI hldF
  cases exec_effect h with
  | registers _ frame => rw [frame]
  | devices frame => rw [frame]
  | index _ writer =>
    rcases writer with ⟨nnn, rfl⟩ | ⟨x, rfl⟩ | ⟨x, rfl⟩
    · exact absurd rfl (hldI nnn)
    · exact absurd rfl (haddI x)
    · exact absurd rfl (hldF x)
  | branch => rfl
  | ret popped => rw [(pop_frame popped).1]; rfl
  | call pushed => rw [(push_frame pushed).1]; rfl

/-- Settles O50: by the effect of the instruction; `PC` changes under `branch`, `ret` and `call`,
whose instructions the column "PC" lists, and the inputs and the keypad under none. -/
theorem onlyControlFlowWritesPc : Obligations.OnlyControlFlowWritesPc := by
  unfold Obligations.OnlyControlFlowWritesPc
  intro i s t h
  cases exec_effect h with
  | registers _ frame => rw [frame]; exact ⟨fun _ => rfl, rfl, rfl, rfl⟩
  | devices frame => rw [frame]; exact ⟨fun _ => rfl, rfl, rfl, rfl⟩
  | index => exact ⟨fun _ => rfl, rfl, rfl, rfl⟩
  | branch writer =>
    exact ⟨fun hpc => absurd (writer.symm.trans hpc) (by decide), rfl, rfl, rfl⟩
  | ret popped => rw [(pop_frame popped).1]; exact ⟨(fun hpc => nomatch hpc), rfl, rfl, rfl⟩
  | call pushed => rw [(push_frame pushed).1]; exact ⟨(fun hpc => nomatch hpc), rfl, rfl, rfl⟩

end Sys2Proof.Machine
end

section
/-! The call stack gives back what was pushed (R30 to R32). -/

namespace Sys2Proof.Machine

/-- A push with slot `j` the first free one fills that slot and no other (R30). -/
theorem push_fills {s : State} (w : Word) (j : Fin 16) (h : s.sp.val = j.val) :
    ∃ s', push s w = .ok s' ∧ s'.sp = j.succ ∧ s'.stack.get j = w ∧
      ∀ q, q ≠ j → s'.stack.get q = s.stack.get q := by
  refine ⟨_, push_of_lt j h, rfl, ?_, fun q hq => ?_⟩
  · simp [Vector.get_eq_getElem]
  · have hne : j.val ≠ q.val := fun e => hq (Fin.ext e.symm)
    simp [Vector.get_eq_getElem, Vector.getElem_set_ne, hne]

/-- Settles O20: a push fills the slot the next pop reads, and a push and pop above it leave that
slot alone. -/
theorem pushThenPopGivesBack : Obligations.PushThenPopGivesBack := by
  unfold Obligations.PushThenPopGivesBack
  refine ⟨?one, ?two⟩
  case one =>
    intro s a h
    let j : Fin 16 := ⟨s.sp.val, h⟩
    obtain ⟨s1, hpush, hsp, hget, -⟩ := push_fills a j rfl
    have hpop := pop_of_succ (s := s1) j (by rw [hsp]; rfl)
    rw [hget] at hpop
    exact ⟨s1, _, hpush, hpop, rfl⟩
  case two =>
    intro s a b h
    let j : Fin 16 := ⟨s.sp.val, by omega⟩
    let k : Fin 16 := ⟨s.sp.val + 1, by omega⟩
    have hjk : j ≠ k := Fin.ne_of_lt (Nat.lt_succ_self _)
    obtain ⟨s1, hpush1, hsp1, hget1, -⟩ := push_fills a j rfl
    obtain ⟨s2, hpush2, hsp2, hget2, hkeep2⟩ := push_fills (s := s1) b k (by rw [hsp1]; rfl)
    have hpop2 := pop_of_succ (s := s2) k (by rw [hsp2]; rfl)
    have hpop1 := pop_of_succ (s := { s2 with sp := k.castSucc }) j rfl
    rw [hget2] at hpop2
    rw [hkeep2 j hjk, hget1] at hpop1
    exact ⟨s1, s2, _, _, hpush1, hpush2, hpop2, hpop1⟩

end Sys2Proof.Machine
end

section
/-! Construction, load and launch: what the state holds before the first step (R40, R41, R240 to
R243). -/

namespace Sys2Proof.Machine

/-- A load that succeeds places an image that fits and sets `PC` (R242, R243). -/
theorem load_eq_some {s t : State} {image : List Byte} (h : s.load image = some t) :
    image.length ≤ 3584 ∧ t = { s with mem := s.mem.putBytes 0x200 image, pc := 0x200 } := by
  unfold State.load at h
  split at h
  · cases h; exact ⟨‹_›, rfl⟩
  · cases h

/-- The font fits in memory from address 0 on (R41). -/
theorem font_fits (font : Vector Byte 80) : 0 + font.toList.length ≤ Config.memSize := by
  rw [Vector.length_toList]; decide

/-- The memory of construction: the font from address 0 on, and what the reset state reads as after
it. -/
theorem construct_mem_get (font : Vector Byte 80) (order : VfOrder) (a : Nat) :
    (State.construct font order).mem.get a =
      if a < 80 then font.toList.getD a 0 else Memory.unlisted a := by
  have h := Memory.get_putBytes (font_fits font) (m := []) rfl a
  simpa [State.construct, Memory.get] using h

/-- Past the font an address with nothing listed reads as 0 (R40). -/
theorem unlisted_of_le {a : Nat} (h : 80 ≤ a) : Memory.unlisted a = 0 :=
  List.getD_eq_default _ _ h

/-- Settles O52: consecutive writes inside memory keep the canonical form, and both the font and an
image that fits lie inside. -/
theorem resetMemoryIsCanonical : Obligations.ResetMemoryIsCanonical := by
  unfold Obligations.ResetMemoryIsCanonical
  refine ⟨Memory.reset_wf, fun font _ => Memory.wf_putBytes (font_fits font) rfl, ?_⟩
  intro s t image hs hload
  obtain ⟨hlen, rfl⟩ := load_eq_some hload
  have hfits : 0x200 + image.length ≤ Config.memSize := by
    rw [Config.memSize]
    omega
  exact Memory.wf_putBytes hfits hs

/-- Settles O55: the registers and inputs by the definition of construction, memory by
`construct_mem_get`, and the pixels by the cleared framebuffer. -/
theorem constructionState : Obligations.ConstructionState := by
  unfold Obligations.ConstructionState
  intro font order
  have hfontBytes : ∀ a : Fin 80, (State.construct font order).mem.get a.val = font.get a := by
    intro a
    rw [construct_mem_get, if_pos a.isLt]
    simp [Vector.get_eq_getElem]
  have hzero : ∀ a, 0x50 ≤ a → a < 4096 → (State.construct font order).mem.get a = 0 := by
    intro a ha _
    rw [construct_mem_get, if_neg (by omega), unlisted_of_le ha]
  refine ⟨_, rfl, ?regs, rfl, rfl, rfl, ?slots, rfl, rfl, hfontBytes, hzero, isSet_clear, ?keys,
    rfl, rfl⟩
  case regs =>
    intro r
    simp [State.reg, State.construct, State.reset, Vector.get_eq_getElem]
  case slots =>
    intro j
    simp [State.construct, State.reset, Vector.get_eq_getElem]
  case keys =>
    intro k
    simp [State.isDown, State.construct, State.reset]

/-- Writing the bytes that unlisted addresses read as into an empty memory lists nothing (log 9). -/
theorem putBytes_unlisted : ∀ (n a : Nat),
    Memory.putBytes [] a ((List.range' a n).map Memory.unlisted) = []
  | 0, _ => rfl
  | n + 1, a => by
    simp only [List.range'_succ, List.map_cons, Memory.putBytes, Memory.put, Memory.listed, if_pos]
    exact putBytes_unlisted n (a + 1)

/-- Settles O56: the default font is what memory reads as with nothing listed, so placing it lists
nothing. -/
theorem resetIsDefaultConstruction : Obligations.ResetIsDefaultConstruction := by
  unfold Obligations.ResetIsDefaultConstruction
  have hfont : (Vector.ofFn fun j : Fin 80 => Config.fontGlyphs.getD j.val 0).toList =
      (List.range' 0 80).map Memory.unlisted := by decide
  rw [State.construct, hfont, putBytes_unlisted]
  rfl

end Sys2Proof.Machine
end

section
/-! `PC` stays below 0x10FF and every stack slot at most 0x1000 (R27), at launch and from step to
step. -/

namespace Sys2Proof.Machine

/-- A decoded instruction is well-formed: its address and height come from 12 and 4 bits (R75). -/
theorem wellFormed_of_decodeWord {op : Word} {i : Instr} (h : decodeWord op = .instr i) :
    WellFormed i := by
  unfold decodeWord decode0 decode8 decodeE decodeF at h
  repeat' split at h
  all_goals cases h <;> simp [WellFormed, Instr.wellFormed, addrOk_fieldNNN, heightOk_fieldN]

/-- A branch of a well-formed instruction at an address inside memory goes at most to 0x10FE: 2 bytes
past the advanced `PC`, or to a 12-bit address plus a byte. -/
theorem BranchTarget.toNat_le {s : State} {i : Instr} {w : Word} (hi : WellFormed i)
    (hpc : s.pc.toNat ≤ 0x1000) (h : BranchTarget s i w) : w.toNat ≤ 0x10FE := by
  cases h with
  | fallThrough => omega
  | skip => rw [word_add_two, BitVec.toNat_ofNat]; omega
  | absolute nnn =>
    have := addrOk_iff.1 hi
    omega
  | offsetByV0 nnn =>
    have := addrOk_iff.1 hi
    have := (s.reg 0).isLt
    rw [toNat_add_zext16]
    omega

/-- An instruction keeps the bounds when `PC`, advanced past it, is at most 0x1000: that is what a
call pushes. -/
theorem exec_keeps_pcBounded {i : Instr} {s t : State} (hi : WellFormed i)
    (hpc : s.pc.toNat ≤ 0x1000) (hs : s.PcBounded) (h : exec i s = .next t) : t.PcBounded := by
  have hslots := hs.2
  cases exec_effect h with
  | registers _ frame => rw [frame]; exact hs
  | devices frame => rw [frame]; exact hs
  | index => exact hs
  | branch _ target => exact ⟨target.toNat_le hi hpc, hslots⟩
  | ret popped =>
    obtain ⟨frame, j, -, -, rfl⟩ := pop_frame popped
    rw [frame]
    exact ⟨(hslots j).trans (by decide), hslots⟩
  | @call nnn s' pushed =>
    have := addrOk_iff.1 hi
    refine ⟨show nnn.toNat ≤ 0x10FE by omega, fun q => ?_⟩
    rcases (push_frame pushed).2 q with hq | hq
    · exact (congrArg BitVec.toNat hq).trans_le hpc
    · exact (congrArg BitVec.toNat hq).trans_le (hslots q)

/-- A fetched instruction lies below 0xFFF, so the advance leaves `PC` at most 0x1000. -/
theorem advance_pc_le {s : State} (h : s.pc.toNat + 1 < 4096) : s.advance.pc.toNat ≤ 0x1000 := by
  rw [State.advance_pc, word_add_two, BitVec.toNat_ofNat]
  omega

theorem cycle_keeps_pcBounded {s t : State} (hs : s.PcBounded) (h : cycle s = .next t) :
    t.PcBounded := by
  rcases cycle_cases s with ⟨-, hc⟩ | ⟨hfetch, hc⟩ | ⟨hfetch, i, hdecode, hc⟩
  · rw [hc] at h
    cases h
    exact hs
  all_goals
    have hpc := advance_pc_le hfetch
    have hadvance : s.advance.PcBounded := ⟨hpc.trans (by decide), hs.2⟩
    rw [hc] at h
  · cases h
    exact hadvance
  · exact exec_keeps_pcBounded (wellFormed_of_decodeWord hdecode) hpc hadvance h

/-- The events before a step change neither `PC` nor a stack slot (R207). -/
theorem deliver_keeps_pcBounded {s : State} (hs : s.PcBounded) : s.deliver.PcBounded := by
  rw [State.PcBounded, deliver_pc, deliver_stack]
  exact hs

/-- Settles O53: delivery, the fetch and each effect of an instruction keep the bounds. -/
theorem stepKeepsPcBounded : Obligations.StepKeepsPcBounded := by
  unfold Obligations.StepKeepsPcBounded
  intro s t hs h
  have hdeliver := deliver_keeps_pcBounded hs
  rcases step_cases s with ⟨-, hstep⟩ | ⟨x, -, hstep⟩ | ⟨f, -, hstep⟩ <;> rw [hstep] at h
  · exact cycle_keeps_pcBounded hdeliver h
  · cases h
    exact hdeliver
  · cases h

/-- Settles O54: construction leaves the slots 0, and the load sets `PC` to 0x200. -/
theorem resetPcIsBounded : Obligations.ResetPcIsBounded := by
  unfold Obligations.ResetPcIsBounded
  have hreset : State.reset.PcBounded := by decide
  refine ⟨hreset, fun font order image t hlaunch => ?_⟩
  obtain ⟨-, rfl⟩ := load_eq_some hlaunch
  exact ⟨show (0x200 : Word).toNat ≤ 0x10FE by decide, hreset.2⟩

end Sys2Proof.Machine
end

section
/-! Memory (R50 to R53, R64): only the two storing instructions change it, every step keeps its
canonical form, a fetch outside it faults, and stored bytes are what the next step fetches. -/

namespace Sys2Proof.Machine

/-! ### What an instruction does to memory -/

@[simp] theorem skipIf_mem (s : State) (c : Bool) : (s.skipIf c).mem = s.mem := by
  cases c <;> rfl

@[simp] theorem writeFlagged_mem (s : State) (x : RegIdx) (flag result : State → Byte) :
    (s.writeFlagged x flag result).mem = s.mem := by
  rw [writeFlagged_frame]

@[simp] theorem loadRegs_mem (a : Nat) (rs : List RegIdx) (s : State) :
    (loadRegs a rs s).mem = s.mem := by
  rw [loadRegs_frame]

theorem pop_mem {s s' : State} {w : Word} (h : pop s = .ok (w, s')) : s'.mem = s.mem := by
  rw [(pop_frame h).1]

theorem push_mem {s s' : State} {w : Word} (h : push s w = .ok s') : s'.mem = s.mem := by
  rw [(push_frame h).1]

/-- The instructions that store in memory (R53). -/
inductive Stores : Instr → Prop
  | ldB (x : RegIdx) : Stores (.ldB x)
  | ldMemVx (x : RegIdx) : Stores (.ldMemVx x)

/-- All that an instruction can do to memory: nothing, or, for the two that store, consecutive
checked writes (R51, R53). -/
theorem exec_mem_cases {i : Instr} {s t : State} (h : exec i s = .next t) :
    t.mem = s.mem ∨ Stores i ∧ ∃ a bs, t = storeBytes a bs s := by
  cases i with
  | ldB x => cases h; exact .inr ⟨.ldB x, _, _, rfl⟩
  | ldMemVx x => cases h; exact .inr ⟨.ldMemVx x, _, _, rfl⟩
  | ret =>
    simp only [exec, execRet] at h
    split at h <;> cases h
    · exact .inl rfl
    · exact .inl ((State.setPc_mem ..).trans (pop_mem ‹_›))
  | call nnn =>
    simp only [exec, execCall] at h
    split at h <;> cases h
    · exact .inl rfl
    · exact .inl ((State.setPc_mem ..).trans (push_mem ‹_›))
  | skp x | sknp x =>
    simp only [exec, execSkp, execSknp] at h
    split at h <;> cases h
    · exact .inl rfl
    · exact .inl (skipIf_mem ..)
  | drw x y n =>
    simp only [exec, execDrw] at h
    split at h <;> cases h <;> exact .inl rfl
  | seImm | sneImm | seReg | sneReg => cases h; exact .inl (skipIf_mem ..)
  | sub | shr | subn | shl => cases h; exact .inl (writeFlagged_mem ..)
  | rnd => cases h; exact .inl (State.draw_mem s)
  | ldVxMem => cases h; exact .inl (loadRegs_mem ..)
  | cls | jp | jpV0 | ldImm | addImm | ldReg | orReg | andReg | xorReg | addReg | ldI | ldVxDt
  | ldVxK | ldDtVx | ldStVx | addI | ldF => cases h; exact .inl rfl

/-- Settles O46: the two instructions that store are excluded, so memory is unchanged. -/
theorem onlyTwoInstructionsStore : Obligations.OnlyTwoInstructionsStore := by
  unfold Obligations.OnlyTwoInstructionsStore
  intro i s t h hldB hldMemVx
  have hmem : t.mem = s.mem := by
    rcases exec_mem_cases h with hmem | ⟨hstores, -⟩
    · exact hmem
    · cases hstores with
      | ldB x => exact absurd rfl (hldB x)
      | ldMemVx x => exact absurd rfl (hldMemVx x)
  exact ⟨hmem, fun a => by rw [hmem]⟩

/-! ### The canonical form -/

/-- Checked writes keep the canonical form: those outside memory are not done (R51). -/
theorem storeBytes_keeps_memCanonical {s : State} (a : Nat) (bs : List Byte)
    (hs : s.memCanonical = true) : (storeBytes a bs s).memCanonical = true := by
  obtain ⟨-, -, hwf, -⟩ := storeBytes_spec (a := a) (bs := bs) hs
  exact hwf

/-- The canonical form depends on memory alone. -/
theorem memCanonical_congr {s t : State} (h : t.mem = s.mem) : t.memCanonical = s.memCanonical :=
  congrArg Memory.wf h

theorem exec_keeps_memCanonical {i : Instr} {s t : State} (hs : s.memCanonical = true)
    (h : exec i s = .next t) : t.memCanonical = true := by
  rcases exec_mem_cases h with hmem | ⟨-, a, bs, rfl⟩
  · rw [memCanonical_congr hmem, hs]
  · exact storeBytes_keeps_memCanonical a bs hs

theorem cycle_keeps_memCanonical {s t : State} (hs : s.memCanonical = true)
    (h : cycle s = .next t) : t.memCanonical = true := by
  rcases cycle_cases s with ⟨-, hc⟩ | ⟨-, hc⟩ | ⟨-, i, -, hc⟩ <;> rw [hc] at h
  · cases h
    exact hs
  · cases h
    exact hs
  · exact exec_keeps_memCanonical (s := s.advance) hs h

/-- Settles O51: delivery and the fetch leave memory alone, and what an instruction stores keeps the
canonical form. -/
theorem stepKeepsMemoryCanonical : Obligations.StepKeepsMemoryCanonical := by
  unfold Obligations.StepKeepsMemoryCanonical
  intro s t hs h
  have hdeliver : s.deliver.memCanonical = true := by
    rw [memCanonical_congr (deliver_mem s), hs]
  rcases step_cases s with ⟨-, hstep⟩ | ⟨x, -, hstep⟩ | ⟨f, -, hstep⟩ <;> rw [hstep] at h
  · exact cycle_keeps_memCanonical hdeliver h
  · cases h
    exact hdeliver
  · cases h

/-! ### The fetch -/

/-- Settles O9: delivery leaves `PC` alone, and the cycle faults at a fetch outside memory. -/
theorem fetchOutsideMemoryFaults : Obligations.FetchOutsideMemoryFaults := by
  unfold Obligations.FetchOutsideMemoryFaults
  intro s hrun hpc
  have hfetch : 4096 ≤ s.deliver.pc.toNat + 1 := by rwa [deliver_pc]
  rw [step_of_running hrun, cycle_of_fetch_fault hfetch, deliver_pc]
  rfl

/-- A register of a stored block is read back at its address, where that is inside memory (R144). -/
theorem get_storeBytes_regBytes {s : State} {x r : RegIdx} {a : Nat} (hwf : s.mem.wf = true)
    (hr : r ≤ x) (ha : a + r.val < 4096) :
    (storeBytes a (s.regBytes x) s).mem.get (a + r.val) = s.reg r := by
  obtain ⟨-, -, -, hget⟩ := storeBytes_spec (a := a) (bs := s.regBytes x) hwf
  have hrx : r.val ≤ x.val := hr
  have hin : a ≤ a + r.val ∧ a + r.val < a + (s.regBytes x).length ∧ a + r.val < 4096 := by
    rw [regBytes_length]
    omega
  rw [hget, if_pos hin, Nat.add_sub_cancel_left, regBytes_getD s x hr]

/-- Checked writes that all lie inside memory change memory alone (R51). -/
theorem storeBytes_frame_of_le {s : State} {a : Nat} {bs : List Byte} (h : a + bs.length ≤ 4096) :
    storeBytes a bs s = { s with mem := (storeBytes a bs s).mem } := by
  have hrun : (storeBytes a bs s).run = s.run := by rw [storeBytes_run, if_pos (.inl h)]
  rw [storeBytes_frame, hrun]

/-- Settles O36: the block lies inside memory, so only memory changes, and the two bytes at `PC` are
`V0` and `V1`. -/
theorem storedBytesAreFetchedNext : Obligations.StoredBytesAreFetchedNext := by
  unfold Obligations.StoredBytesAreFetchedNext
  intro x i s t hwf hrun hsched hx hpc hin hexec hdecode
  have ht : t = storeBytes s.i.toNat (s.regBytes x) s := by cases hexec; rfl
  have hframe : t = { s with mem := t.mem } := by
    rw [ht]
    exact storeBytes_frame_of_le (by rw [regBytes_length]; omega)
  have htpc : t.pc = s.i := by rw [hframe, ← hpc]
  have htrun : t.run = .running := by rw [hframe]; exact hrun
  have htdeliver : t.deliver = t := deliver_nil (by rw [hframe]; exact hsched)
  have hV0 : t.mem.get s.i.toNat = s.reg 0 := by
    rw [ht]
    exact get_storeBytes_regBytes (r := 0) hwf (Fin.zero_le x) (show s.i.toNat + 0 < 4096 by omega)
  have hV1 : t.mem.get (s.i.toNat + 1) = s.reg 1 := by
    rw [ht]
    exact get_storeBytes_regBytes (r := 1) hwf hx (show s.i.toNat + 1 < 4096 by omega)
  have hfetch : decodeWord (wordOf (t.mem.get t.pc.toNat) (t.mem.get (t.pc.toNat + 1))) =
      .instr i := by
    rw [htpc, hV0, hV1, hdecode]
  rw [step_of_running (by rw [htdeliver, htrun]), htdeliver]
  exact cycle_of_instr (by rw [htpc]; omega) hfetch

end Sys2Proof.Machine
end

section
/-! Encoding and decoding (R71 to R90): the decoder and the encoder are inverse to each other, and the
switch of R81 agrees with the mask table of R80 and with the unknown sets of R89. -/

namespace Sys2Proof

/-! ### The decoder reads back an encoded instruction -/

/-- The decoder reads an instruction from its encoded word: by format, the fields of the word are the
operands and its fixed bits select the row (R74, R80). -/
theorem decodeWord_encode {i : Instr} (hi : WellFormed i) : decodeWord (encode i) = .instr i := by
  cases i with
  | cls | ret => decide
  | jp nnn | call nnn | ldI nnn | jpV0 nnn =>
    have hnnn := addrOk_iff.1 hi
    simp [encode, decodeWord, bits_encAddr, fieldNNN_encAddr, hnnn]
  | seImm | sneImm | ldImm | addImm | rnd =>
    simp [encode, decodeWord, bits_encRegImm, fieldX_encRegImm, fieldKK_encRegImm]
  | seReg | sneReg =>
    simp [encode, decodeWord, bits_encRegReg, fieldX_encRegReg, fieldY_encRegReg, fieldN_encRegReg]
  | drw x y n =>
    have hn := heightOk_iff.1 hi
    simp [encode, decodeWord, bits_encRegReg, fieldX_encRegReg, fieldY_encRegReg, fieldN_encRegReg, hn]
  | ldReg | orReg | andReg | xorReg | addReg | sub | shr | subn | shl =>
    simp [encode, decodeWord, decode8, bits_encRegReg, fieldX_encRegReg, fieldY_encRegReg,
      fieldN_encRegReg]
  | skp | sknp =>
    simp [encode, decodeWord, decodeE, bits_encReg, fieldX_encReg, bits_7_0_encReg]
  | ldVxDt | ldVxK | ldDtVx | ldStVx | addI | ldF | ldB | ldMemVx | ldVxMem =>
    simp [encode, decodeWord, decodeF, bits_encReg, fieldX_encReg, bits_7_0_encReg]

/-- Settles O1: the two bytes make the encoded word again, and the decoder reads it back. -/
theorem decodeOfEncodeGivesTheInstruction : Obligations.DecodeOfEncodeGivesTheInstruction := by
  unfold Obligations.DecodeOfEncodeGivesTheInstruction
  intro i rest hi
  calc decodeBytes (encodeBytes i ++ rest)
      = (decodeWord (wordOf (bytesOf (encode i)).1 (bytesOf (encode i)).2), rest) := rfl
    _ = (.instr i, rest) := by rw [wordOf_bytesOf, decodeWord_encode hi]

/-! ### A decoded word is its instruction's encoding -/

theorem encode_of_decode0 {op : Word} {i : Instr} (h : decode0 op = .instr i) : encode i = op := by
  unfold decode0 at h
  repeat' split at h
  all_goals cases h
  all_goals exact Eq.symm ‹_›

theorem encode_of_decode8 {op : Word} {i : Instr} (htop : bits op 15 12 = 0x8)
    (h : decode8 op = .instr i) : encode i = op := by
  unfold decode8 at h
  split at h <;> cases h <;> exact encRegReg_fields htop ‹_›

theorem encode_of_decodeE {op : Word} {i : Instr} (htop : bits op 15 12 = 0xE)
    (h : decodeE op = .instr i) : encode i = op := by
  unfold decodeE at h
  split at h <;> cases h <;> exact encReg_fields htop ‹_›

theorem encode_of_decodeF {op : Word} {i : Instr} (htop : bits op 15 12 = 0xF)
    (h : decodeF op = .instr i) : encode i = op := by
  unfold decodeF at h
  split at h <;> cases h <;> exact encReg_fields htop ‹_›

/-- The word of a decoded instruction is its encoding: by top nibble (arm `h_(k + 1)` of the decoder is
top nibble `k`), the format's fields give the word back (R73, R75, R77). -/
theorem encode_of_decodeWord {op : Word} {i : Instr} (h : decodeWord op = .instr i) :
    encode i = op := by
  unfold decodeWord at h
  split at h
  case h_1 => exact encode_of_decode0 h
  case h_9 htop => exact encode_of_decode8 htop h
  case h_15 htop => exact encode_of_decodeE htop h
  case h_16 htop => exact encode_of_decodeF htop h
  case h_2 htop | h_3 htop | h_11 htop | h_12 htop =>
    cases h
    exact encAddr_fields htop
  case h_4 htop | h_5 htop | h_7 htop | h_8 htop | h_13 htop =>
    cases h
    exact encRegImm_fields htop
  case h_6 htop | h_10 htop =>
    split at h <;> cases h
    exact encRegReg_fields htop ‹_›
  case h_14 htop =>
    cases h
    exact encRegReg_fields htop rfl
  case h_17 => cases h

/-- Settles O2: the decoded fields are in range, and they give the word back. -/
theorem encodeOfDecodeGivesTheWord : Obligations.EncodeOfDecodeGivesTheWord := by
  unfold Obligations.EncodeOfDecodeGivesTheWord
  intro op i h
  exact ⟨Machine.wellFormed_of_decodeWord h, encode_of_decodeWord h⟩

/-! ### The unknown words -/

theorem decode0_eq_unknown_iff (op : Word) :
    decode0 op = .unknown op ↔ op.toNat ≠ 0x00E0 ∧ op.toNat ≠ 0x00EE := by
  unfold decode0
  simp only [← BitVec.toNat_inj]
  split
  · simp_all
  · split <;> simp_all

theorem decode8_eq_unknown_iff (op : Word) :
    decode8 op = .unknown op ↔ op.toNat % 16 ∈ [0x8, 0x9, 0xA, 0xB, 0xC, 0xD, 0xF] := by
  unfold decode8
  rw [fieldN_eq]
  split <;> simp_all
  omega

theorem decodeE_eq_unknown_iff (op : Word) :
    decodeE op = .unknown op ↔ op.toNat % 256 ∉ [0x9E, 0xA1] := by
  unfold decodeE
  rw [bits_7_0]
  split <;> simp_all

theorem decodeF_eq_unknown_iff (op : Word) :
    decodeF op = .unknown op ↔
      op.toNat % 256 ∉ [0x07, 0x0A, 0x15, 0x18, 0x1E, 0x29, 0x33, 0x55, 0x65] := by
  unfold decodeF
  rw [bits_7_0]
  split <;> simp_all

/-- Settles O4: by top nibble (arm `h_(k + 1)` is top nibble `k`); two arms test `n`, four have a
switch of their own, and the other ten answer an instruction for every word. -/
theorem unknownWordsAreTheListedSets : Obligations.UnknownWordsAreTheListedSets := by
  unfold Obligations.UnknownWordsAreTheListedSets
  intro op
  have hlt := op.isLt
  have h0 : op.toNat ≤ 0x0FFF ↔ op.toNat / 4096 = 0 := by omega
  unfold decodeWord
  rw [bits_15_12, h0]
  split
  case h_1 htop => simp [htop, decode0_eq_unknown_iff]
  case h_6 htop | h_10 htop =>
    rw [fieldN_eq]
    split <;> simp_all
  case h_9 htop => simp [htop, decode8_eq_unknown_iff]
  case h_15 htop => simp [htop, decodeE_eq_unknown_iff]
  case h_16 htop => simp [htop, decodeF_eq_unknown_iff]
  case h_2 htop | h_3 htop | h_4 htop | h_5 htop | h_7 htop | h_8 htop | h_11 htop | h_12 htop
    | h_13 htop | h_14 htop => simp [htop]
  case h_17 => grind -- a 16-bit word has no top nibble above 0xF


/-- Settles O5: the decoder evaluates on the seven words. -/
theorem writtenOutWordsDecode : Obligations.WrittenOutWordsDecode := by
  unfold Obligations.WrittenOutWordsDecode
  decide

/-! ### The opcode map -/

/-- The rows of the opcode map by mask: `CLS` and `RET` fix the whole word, the others the top nibble
alone, with the lowest nibble, or with the low byte (R77, R80). -/
theorem opcodeTable_masks : ∀ row ∈ opcodeTable,
    (row.mask = 0xFFFF ∧ row.fixed ∈ ([0x00E0, 0x00EE] : List Word)) ∨
    (row.mask = 0xF000 ∧ ∃ f ∈ [0x1, 0x2, 0x3, 0x4, 0x6, 0x7, 0xA, 0xB, 0xC, 0xD],
      row.fixed = BitVec.ofNat 16 (f * 4096)) ∨
    (row.mask = 0xF00F ∧ ∃ p ∈ [(0x5, 0x0), (0x8, 0x0), (0x8, 0x1), (0x8, 0x2), (0x8, 0x3),
        (0x8, 0x4), (0x8, 0x5), (0x8, 0x6), (0x8, 0x7), (0x8, 0xE), (0x9, 0x0)],
      row.fixed = BitVec.ofNat 16 (p.1 * 4096 + p.2)) ∨
    (row.mask = 0xF0FF ∧ ∃ p ∈ [(0xE, 0x9E), (0xE, 0xA1), (0xF, 0x07), (0xF, 0x0A), (0xF, 0x15),
        (0xF, 0x18), (0xF, 0x1E), (0xF, 0x29), (0xF, 0x33), (0xF, 0x55), (0xF, 0x65)],
      row.fixed = BitVec.ofNat 16 (p.1 * 4096 + p.2)) := by decide

/-- A word that matches a row is in none of the unknown sets: each set excludes the values that the
rows of its top nibble fix. -/
theorem decodeWord_ne_unknown_of_rowMatches {op : Word} {row : OpcodeRow} (hrow : row ∈ opcodeTable)
    (hmatch : rowMatches op row = true) : decodeWord op ≠ .unknown op := by
  intro hunknown
  have hset := (unknownWordsAreTheListedSets op).1 hunknown
  have hbits : op &&& row.mask = row.fixed := beq_iff_eq.1 hmatch
  simp only [List.mem_cons, List.not_mem_nil, or_false, not_or] at hset
  rcases opcodeTable_masks row hrow with
    ⟨hmask, hfixed⟩ | ⟨hmask, f, hf, hfixed⟩ | ⟨hmask, p, hp, hfixed⟩ | ⟨hmask, p, hp, hfixed⟩
  · have hop : op = row.fixed := by rw [← hbits, hmask]; exact (BitVec.and_allOnes).symm
    rw [← hop] at hfixed
    simp only [List.mem_cons, List.not_mem_nil, or_false] at hfixed
    rcases hfixed with rfl | rfl <;> simp at hset
  · simp only [List.mem_cons, List.not_mem_nil, or_false] at hf
    have htop : f < 16 := by omega
    rw [hmask, hfixed, match_F000 htop] at hbits
    omega
  · simp only [List.mem_cons, List.not_mem_nil, or_false, Prod.ext_iff] at hp
    obtain ⟨htop, hlow⟩ : p.1 < 16 ∧ p.2 < 16 := by omega
    rw [hmask, hfixed, match_F00F htop hlow] at hbits
    omega
  · simp only [List.mem_cons, List.not_mem_nil, or_false, Prod.ext_iff] at hp
    obtain ⟨htop, hlow⟩ : p.1 < 16 ∧ p.2 < 256 := by omega
    rw [hmask, hfixed, match_F0FF htop hlow] at hbits
    omega

/-- The decoder answers an instruction or rejects the word by name (R81, R88). -/
theorem decodeWord_cases (op : Word) :
    (∃ i, decodeWord op = .instr i) ∨ decodeWord op = .unknown op := by
  unfold decodeWord decode0 decode8 decodeE decodeF
  repeat' split
  all_goals simp

/-- Every well-formed instruction's word matches a row of its mnemonic (R71, R74, R80). -/
theorem encode_matches_row : (i : Instr) → Laws.FixedBits.Statement i
  | .cls => Laws.FixedBits.cls
  | .ret => Laws.FixedBits.ret
  | .jp nnn => Laws.FixedBits.jp nnn
  | .call nnn => Laws.FixedBits.call nnn
  | .seImm x kk => Laws.FixedBits.seImm x kk
  | .sneImm x kk => Laws.FixedBits.sneImm x kk
  | .seReg x y => Laws.FixedBits.seReg x y
  | .ldImm x kk => Laws.FixedBits.ldImm x kk
  | .addImm x kk => Laws.FixedBits.addImm x kk
  | .ldReg x y => Laws.FixedBits.ldReg x y
  | .orReg x y => Laws.FixedBits.orReg x y
  | .andReg x y => Laws.FixedBits.andReg x y
  | .xorReg x y => Laws.FixedBits.xorReg x y
  | .addReg x y => Laws.FixedBits.addReg x y
  | .sub x y => Laws.FixedBits.sub x y
  | .shr x y => Laws.FixedBits.shr x y
  | .subn x y => Laws.FixedBits.subn x y
  | .shl x y => Laws.FixedBits.shl x y
  | .sneReg x y => Laws.FixedBits.sneReg x y
  | .ldI nnn => Laws.FixedBits.ldI nnn
  | .jpV0 nnn => Laws.FixedBits.jpV0 nnn
  | .rnd x kk => Laws.FixedBits.rnd x kk
  | .drw x y n => Laws.FixedBits.drw x y n
  | .skp x => Laws.FixedBits.skp x
  | .sknp x => Laws.FixedBits.sknp x
  | .ldVxDt x => Laws.FixedBits.ldVxDt x
  | .ldVxK x => Laws.FixedBits.ldVxK x
  | .ldDtVx x => Laws.FixedBits.ldDtVx x
  | .ldStVx x => Laws.FixedBits.ldStVx x
  | .addI x => Laws.FixedBits.addI x
  | .ldF x => Laws.FixedBits.ldF x
  | .ldB x => Laws.FixedBits.ldB x
  | .ldMemVx x => Laws.FixedBits.ldMemVx x
  | .ldVxMem x => Laws.FixedBits.ldVxMem x

/-- The decoded instruction's row is in the map and matches the word. -/
theorem exists_row_of_decodeWord {op : Word} {i : Instr} (h : decodeWord op = .instr i) :
    ∃ row ∈ opcodeTable, row.mnemonic = mnemonicOf i ∧ rowMatches op row = true := by
  have hrow := encode_matches_row i (Machine.wellFormed_of_decodeWord h)
  rwa [encode_of_decodeWord h] at hrow

/-- A row that matches a word is the only one: two that match have the same fixed bits under both
masks. -/
theorem row_eq_of_rowMatches {op : Word} {r1 r2 : OpcodeRow} (h1 : r1 ∈ opcodeTable)
    (h2 : r2 ∈ opcodeTable) (hm1 : rowMatches op r1 = true) (hm2 : rowMatches op r2 = true) :
    r1 = r2 := by
  apply opcodeTable_disjoint r1 h1 r2 h2
  calc r1.fixed &&& r2.mask
      = (op &&& r1.mask) &&& r2.mask := by rw [beq_iff_eq.1 hm1]
    _ = (op &&& r2.mask) &&& r1.mask := by
      rw [BitVec.and_assoc, BitVec.and_comm r1.mask, ← BitVec.and_assoc]
    _ = r2.fixed &&& r1.mask := by rw [beq_iff_eq.1 hm2]

theorem opcodeTable_nodup : opcodeTable.Nodup := by decide

/-- The rows that match are the one that matches. -/
theorem filter_rowMatches_eq_singleton {op : Word} {row : OpcodeRow} (hrow : row ∈ opcodeTable)
    (hmatch : rowMatches op row = true) : opcodeTable.filter (rowMatches op) = [row] := by
  have hsame : ∀ r ∈ opcodeTable, rowMatches op r = (r == row) := by
    intro r hr
    rw [Bool.eq_iff_iff, beq_iff_eq]
    exact ⟨fun hm => row_eq_of_rowMatches hr hrow hm hmatch, fun e => e ▸ hmatch⟩
  rw [List.filter_congr hsame, List.filter_beq, List.count_eq_one_of_mem opcodeTable_nodup hrow]
  rfl

/-- Settles O3: a decoded word is an encoding, which matches its row and, the rows being disjoint, no
other; a word that matches a row is not unknown. -/
theorem decoderSelectsTheOneMatchingRow : Obligations.DecoderSelectsTheOneMatchingRow := by
  unfold Obligations.DecoderSelectsTheOneMatchingRow
  intro op
  refine ⟨fun i h => ?_, fun h => ?_⟩
  · obtain ⟨row, hrow, hname, hmatch⟩ := exists_row_of_decodeWord h
    rw [filter_rowMatches_eq_singleton hrow hmatch, List.map_singleton, hname]
  · rw [List.filter_eq_nil_iff]
    intro row hrow hmatch
    rcases decodeWord_cases op with ⟨i, hi⟩ | hunknown
    · exact h i hi
    · exact decodeWord_ne_unknown_of_rowMatches hrow hmatch hunknown

end Sys2Proof
end

section
/-! The word at `PC` in the step (R70, R88): an instruction's is executed, an unknown one only
advances `PC`, and a word stored there is the one that runs. -/

namespace Sys2Proof.Machine

/-! ### The fetched word -/

/-- The fetched word from its number (R52, R55). -/
theorem wordOf_eq_of_toNat {op : Word} {hi lo : Byte} (h : op.toNat = hi.toNat * 256 + lo.toNat) :
    wordOf hi lo = op :=
  BitVec.eq_of_toNat_eq (by rw [wordOf_toNat, h])

/-- The fetch advance on naturals (R70). -/
theorem advance_eq (s : State) :
    s.advance = { s with pc := BitVec.ofNat 16 ((s.pc.toNat + 2) % 65536) } := by
  have hpc : s.pc + 2 = BitVec.ofNat 16 ((s.pc.toNat + 2) % 65536) :=
    BitVec.eq_of_toNat_eq (by simp [BitVec.toNat_add])
  rw [← hpc]
  rfl

section Fetch

variable {s : State} {op : Word} (hrun : s.deliver.run = .running) (hpc : s.pc.toNat + 1 < 4096)
  (hword : wordOf (s.mem.get s.pc.toNat) (s.mem.get (s.pc.toNat + 1)) = op)
include hrun hpc hword

/-- A running machine executes the instruction whose word stands at `PC` (R70). -/
theorem step_of_word_instr {i : Instr} (h : decodeWord op = .instr i) :
    step s = exec i s.deliver.advance := by
  rw [step_of_running hrun]
  apply cycle_of_instr <;> rw [deliver_pc]
  · exact hpc
  · rw [deliver_mem, hword, h]

/-- A running machine only advances past a word that is no instruction (R88). -/
theorem step_of_word_unknown (h : ∀ i, decodeWord op ≠ .instr i) :
    step s = .next s.deliver.advance := by
  rw [step_of_running hrun]
  apply cycle_of_unknown <;> rw [deliver_pc]
  · exact hpc
  · rw [deliver_mem, hword]
    exact h

end Fetch

/-- Settles O6: the two bytes at `PC` make the word, and the advance is that of `advance_eq`. -/
theorem stepExecutesTheFetchedInstruction : Obligations.StepExecutesTheFetchedInstruction := by
  unfold Obligations.StepExecutesTheFetchedInstruction
  intro s op i hrun hpc hop hdecode
  rw [step_of_word_instr hrun hpc (wordOf_eq_of_toNat hop) hdecode, advance_eq, deliver_pc]

/-- Settles O8: a decoded word would match its row. -/
theorem unknownOpcodeOnlyAdvances : Obligations.UnknownOpcodeOnlyAdvances := by
  unfold Obligations.UnknownOpcodeOnlyAdvances
  intro s op hrun hpc hop hnorow
  have hunknown : ∀ i, decodeWord op ≠ .instr i := by
    intro i hi
    obtain ⟨row, hrow, -, hmatch⟩ := exists_row_of_decodeWord hi
    exact hnorow row hrow (beq_iff_eq.1 hmatch)
  rw [step_of_word_unknown hrun hpc (wordOf_eq_of_toNat hop) hunknown, advance_eq, deliver_pc]

/-! ### A word stored where the next fetch reads -/

/-- Both bytes at the fetch address are inside memory (log 10). -/
theorem fetchAddr_lt (s : State) : s.fetchAddr + 1 < 4096 := by
  unfold State.fetchAddr
  split
  · assumption
  · decide

/-- The next fetch is at the fetch address (log 10). -/
theorem withFetchWord_pc_toNat (s : State) (nbits w : Nat) :
    (s.withFetchWord nbits w).pc.toNat = s.fetchAddr := by
  have := fetchAddr_lt s
  simp only [State.withFetchWord, BitVec.toNat_ofNat]
  omega

/-- The two bytes there are those of the stored word. -/
theorem withFetchWord_word {s : State} (hwf : s.mem.wf = true) (w : Nat) (hw : w < 65536) :
    wordOf ((s.withFetchWord 16 w).mem.get s.fetchAddr)
      ((s.withFetchWord 16 w).mem.get (s.fetchAddr + 1)) = BitVec.ofNat 16 w := by
  have hlt := fetchAddr_lt s
  have hwf' := Memory.wf_put (v := (bytesOf (BitVec.ofNat 16 w)).1)
    (show s.fetchAddr < Config.memSize by rw [Config.memSize]; omega) hwf
  have hmod : w % 2 ^ 16 = w := Nat.mod_eq_of_lt hw
  simp only [State.withFetchWord, hmod]
  rw [Memory.get_put hwf', Memory.get_put hwf', Memory.get_put hwf, if_neg (by omega), if_pos rfl,
    if_pos rfl, wordOf_bytesOf]

/-- Events neither fault a machine nor start a wait, so the state still runs at the fetch. -/
theorem withFetchWord_deliver_run (s : State) (nbits w : Nat) :
    (s.withFetchWord nbits w).deliver.run = .running := by
  rcases deliver_run (s.withFetchWord nbits w) with h | h <;> exact h

/-- The table's reading of a 16-bit number is the decoder's of that word. -/
theorem decodeTableWord_eq_some_iff {w : Nat} (hw : w < 65536) {i : Instr} :
    decodeTableWord 16 w = some i ↔ decodeWord (BitVec.ofNat 16 w) = .instr i := by
  have hmod : w % 2 ^ 16 = w := Nat.mod_eq_of_lt hw
  simp only [decodeTableWord, decodeBytes, wordOf_bytesOf, hmod]
  split <;> simp_all

/-- Settles O59: the stored word is the one at `PC`, and the machine runs there. -/
theorem storedFetchWordRuns : Obligations.StoredFetchWordRuns := by
  unfold Obligations.StoredFetchWordRuns
  intro s w hwf hw
  have hrun := withFetchWord_deliver_run s 16 w
  have hpc := withFetchWord_pc_toNat s 16 w
  have hlt := fetchAddr_lt s
  have hword := withFetchWord_word hwf w hw
  rw [← hpc] at hlt hword
  refine ⟨fun i hi => ?_, fun hnone => ?_⟩
  · exact step_of_word_instr hrun hlt hword ((decodeTableWord_eq_some_iff hw).1 hi)
  · refine step_of_word_unknown hrun hlt hword fun i hi => ?_
    have hsome := (decodeTableWord_eq_some_iff hw).2 hi
    rw [hnone] at hsome
    cases hsome

end Sys2Proof.Machine
end

section
/-! Control flow (R100 to R109): where RET, CALL, the jumps and the skips leave `PC`, and what they
leave unchanged. -/

namespace Sys2Proof.Machine

/-! ### The call stack -/

/-- RET goes to the popped slot (R101). -/
theorem exec_ret_of_pop_ok {s s' : State} {w : Word} (h : pop s = .ok (w, s')) :
    exec .ret s = .next (s'.setPc w) := by
  simp only [exec, execRet, h]

/-- RET raises the fault of its pop (R101). -/
theorem exec_ret_of_pop_error {s : State} {f : Fault} (h : pop s = .error f) :
    exec .ret s = .next (s.raise f) := by
  simp only [exec, execRet, h]

/-- CALL pushes `PC` and goes to its target (R103). -/
theorem exec_call_of_push_ok {s s' : State} {nnn : Word} (h : push s s.pc = .ok s') :
    exec (.call nnn) s = .next (s'.setPc nnn) := by
  simp only [exec, execCall, h]

/-- CALL raises the fault of its push (R103). -/
theorem exec_call_of_push_error {s : State} {nnn : Word} {f : Fault} (h : push s s.pc = .error f) :
    exec (.call nnn) s = .next (s.raise f) := by
  simp only [exec, execCall, h]

/-- Settles O18: the pop answers the top slot, or the fault of an empty stack. -/
theorem returnPopsIntoPc : Obligations.ReturnPopsIntoPc := by
  unfold Obligations.ReturnPopsIntoPc
  refine fun s => ⟨fun j hj => ?occupied, fun hempty => ?empty⟩
  case occupied => exact exec_ret_of_pop_ok (pop_of_succ j hj)
  case empty => exact exec_ret_of_pop_error (pop_of_empty hempty)

/-- Settles O19: the push fills the first free slot and no other, or answers the fault of a full
stack. -/
theorem callPushesPcAndJumps : Obligations.CallPushesPcAndJumps := by
  unfold Obligations.CallPushesPcAndJumps
  refine fun nnn s => ⟨fun j hj => ?free, fun hfull => ?full⟩
  case free =>
    obtain ⟨s', hpush, hsp, hfilled, hkept⟩ := push_fills s.pc j hj
    have hframe := (push_frame hpush).1
    refine ⟨s'.setPc nnn, exec_call_of_push_ok hpush, congrArg (·.setPc nnn) hframe,
      congrArg Fin.val hsp, fun q => ?_⟩
    split
    next hq => rw [hq]; exact hfilled
    next hq => exact hkept q hq
  case full => exact exec_call_of_push_error (push_of_full hfull)

/-! ### The jumps -/

/-- Settles O21: the target of JP_V0 is a 16-bit sum, and a 12-bit address plus a byte does not
wrap. -/
theorem jumpsWriteAbsoluteTargets : Obligations.JumpsWriteAbsoluteTargets := by
  unfold Obligations.JumpsWriteAbsoluteTargets
  intro nnn s
  have hsum := toNat_add_zext16 nnn (s.reg 0)
  refine ⟨rfl, s.setPc (nnn + zext16 (s.reg 0)), rfl, rfl, hsum, fun hnnn => ?_⟩
  have hV0 := (s.reg 0).isLt
  rw [State.setPc_pc, hsum]
  omega

/-! ### The skips -/

/-- The skip on naturals (R104). -/
theorem skip_eq (s : State) : s.skip = { s with pc := BitVec.ofNat 16 (s.pc.toNat + 2) } :=
  congrArg s.setPc (word_add_two s.pc)

/-- A skip on equality adds 2 to `PC` exactly when the bytes are equal (R104, R105, R107). -/
theorem skipIf_beq (s : State) (a b : Byte) :
    s.skipIf (a == b) = { s with
      pc := BitVec.ofNat 16 (s.pc.toNat + if a.toNat = b.toNat then 2 else 0) } := by
  by_cases h : a = b
  · simp [State.skipIf, skip_eq, h]
  · simp [State.skipIf, h, BitVec.toNat_inj]

/-- A skip on difference adds 2 to `PC` exactly when the bytes differ (R104, R106, R108). -/
theorem skipIf_bne (s : State) (a b : Byte) :
    s.skipIf (a != b) = { s with
      pc := BitVec.ofNat 16 (s.pc.toNat + if a.toNat = b.toNat then 0 else 2) } := by
  by_cases h : a = b
  · simp [State.skipIf, h]
  · simp [State.skipIf, skip_eq, h, BitVec.toNat_inj]

/-- Settles O22: SE_IMM skips on equality of `Vx` and `kk`, SNE_IMM on difference. -/
theorem immediateComparisonsSkip : Obligations.ImmediateComparisonsSkip := by
  unfold Obligations.ImmediateComparisonsSkip
  intro x kk s
  exact ⟨congrArg _ (skipIf_beq s (s.reg x) kk), congrArg _ (skipIf_bne s (s.reg x) kk)⟩

/-- Settles O23: SE_REG skips on equality of `Vx` and `Vy`, SNE_REG on difference. -/
theorem registerComparisonsSkip : Obligations.RegisterComparisonsSkip := by
  unfold Obligations.RegisterComparisonsSkip
  intro x y s
  exact ⟨congrArg _ (skipIf_beq s (s.reg x) (s.reg y)), congrArg _ (skipIf_bne s (s.reg x) (s.reg y))⟩

end Sys2Proof.Machine
end

section
/-! Register loads and arithmetic (R120 to R131): the registers each instruction of the family leaves,
in both readings of `VF_ORDER`. -/

namespace Sys2Proof.Machine

/-- The obligations write `VF` by its number (R21). -/
theorem vf_eq : vf = 15 := rfl

/-! ### One register written -/

theorem reg_setReg_self (s : State) (x : RegIdx) (b : Byte) : (s.setReg x b).reg x = b := by
  rw [State.reg_setReg, if_pos rfl]

theorem reg_setReg_of_ne {s : State} {x r : RegIdx} (b : Byte) (h : r ≠ x) :
    (s.setReg x b).reg r = s.reg r := by
  rw [State.reg_setReg, if_neg h]

/-- Settles O24: both are a write of `Vx`, and a byte sum is modulo 256. -/
theorem immediateLoadAndAdd : Obligations.ImmediateLoadAndAdd := by
  unfold Obligations.ImmediateLoadAndAdd
  refine fun x kk s => ⟨⟨s.setReg x kk, rfl, rfl, fun r => State.reg_setReg s x r kk⟩,
    s.setReg x (s.reg x + kk), rfl, rfl, ?sum, fun r hr => reg_setReg_of_ne _ hr⟩
  case sum => rw [reg_setReg_self, BitVec.toNat_add]

/-- Settles O25: each is a write of `Vx`; the bits are those of the byte operation. -/
theorem copyAndBitwiseLogic : Obligations.CopyAndBitwiseLogic := by
  unfold Obligations.CopyAndBitwiseLogic
  refine fun x y s => ⟨⟨s.setReg x (s.reg y), rfl, rfl, fun r => State.reg_setReg s x r _⟩,
    ⟨s.setReg x (s.reg x ||| s.reg y), rfl, rfl, fun j _ => ?or, fun r hr => reg_setReg_of_ne _ hr⟩,
    ⟨s.setReg x (s.reg x &&& s.reg y), rfl, rfl, fun j _ => ?and, fun r hr => reg_setReg_of_ne _ hr⟩,
    ⟨s.setReg x (s.reg x ^^^ s.reg y), rfl, rfl, fun j _ => ?xor, fun r hr => reg_setReg_of_ne _ hr⟩⟩
  case or => rw [reg_setReg_self, BitVec.getLsbD_or]
  case and => rw [reg_setReg_self, BitVec.getLsbD_and]
  case xor => rw [reg_setReg_self, BitVec.getLsbD_xor]

/-- Settles O26: the carry is written last, so `VF` holds it whatever `x` is, and the sum stands where
`Vx` is another register. -/
theorem addSetsCarry : Obligations.AddSetsCarry := by
  unfold Obligations.AddSetsCarry
  rw [← vf_eq]
  refine fun x y s => ⟨(s.setReg x (s.reg x + s.reg y)).setReg vf (carryFlag (s.reg x) (s.reg y)),
    rfl, rfl, ?carry, fun hx => ?sum, fun r hr hvf => ?others⟩
  case carry => rw [reg_setReg_self, carryFlag_toNat]
  case sum => rw [reg_setReg_of_ne _ hx, reg_setReg_self, BitVec.toNat_add]
  case others => rw [reg_setReg_of_ne _ hvf, reg_setReg_of_ne _ hr]

/-! ### A flag and a result written -/

/-- A result that the flag write does not disturb is the same in both orders (R120). -/
theorem writeFlagged_of_result_kept {s : State} {x : RegIdx} {flag result : State → Byte}
    (hx : x ≠ vf) (hkept : result (s.setReg vf (flag s)) = result s) :
    s.writeFlagged x flag result = (s.setReg x (result s)).setReg vf (flag s) := by
  cases h : s.vfOrder with
  | asWritten => rw [writeFlagged_asWritten h, hkept, State.setReg_comm _ hx.symm]
  | flagLast => exact writeFlagged_flagLast h

/-- The two writes of SUB, SHR, SUBN and SHL, whose flag and result are functions of the bytes `Vx` and
`Vy` (R128 to R131). -/
def State.writeFlaggedBytes (s : State) (x y : RegIdx) (flag result : Byte → Byte → Byte) : State :=
  s.writeFlagged x (fun t => flag (t.reg x) (t.reg y)) (fun t => result (t.reg x) (t.reg y))

theorem exec_sub (x y : RegIdx) (s : State) :
    exec (.sub x y) s = .next (s.writeFlaggedBytes x y notBorrowFlag (· - ·)) := rfl

theorem exec_subn (x y : RegIdx) (s : State) :
    exec (.subn x y) s =
      .next (s.writeFlaggedBytes x y (fun a b => notBorrowFlag b a) (fun a b => b - a)) := rfl

theorem exec_shr (x y : RegIdx) (s : State) :
    exec (.shr x y) s = .next (s.writeFlaggedBytes x x (fun a _ => shrFlag a) (fun a _ => a >>> 1)) := rfl

theorem exec_shl (x y : RegIdx) (s : State) :
    exec (.shl x y) s = .next (s.writeFlaggedBytes x x (fun a _ => shlFlag a) (fun a _ => a <<< 1)) := rfl

section FlaggedBytes

variable {s : State} {x y : RegIdx} {flag result : Byte → Byte → Byte}

theorem writeFlaggedBytes_frame : s.writeFlaggedBytes x y flag result =
    { s with v := (s.writeFlaggedBytes x y flag result).v } :=
  writeFlagged_frame s x _ _

theorem writeFlaggedBytes_reg_of_ne {r : RegIdx} (hx : r ≠ x) (hvf : r ≠ vf) :
    (s.writeFlaggedBytes x y flag result).reg r = s.reg r :=
  writeFlagged_reg_of_ne hx hvf

/-- Where the result does not read `VF`, both orders write it and then the flag (R120). -/
theorem writeFlaggedBytes_of_ne (hx : x ≠ vf) (hy : y ≠ vf) :
    s.writeFlaggedBytes x y flag result =
      (s.setReg x (result (s.reg x) (s.reg y))).setReg vf (flag (s.reg x) (s.reg y)) :=
  writeFlagged_of_result_kept hx (by rw [reg_setReg_of_ne _ hx, reg_setReg_of_ne _ hy])

/-- The flag write comes last where the order says so or cannot be told (R120). -/
theorem writeFlaggedBytes_flag_last (h : s.vfOrder = .flagLast ∨ x ≠ vf ∧ y ≠ vf) :
    s.writeFlaggedBytes x y flag result =
      (s.setReg x (result (s.reg x) (s.reg y))).setReg vf (flag (s.reg x) (s.reg y)) :=
  h.elim writeFlagged_flagLast fun ⟨hx, hy⟩ => writeFlaggedBytes_of_ne hx hy

/-- `VF` ends as the flag where that is written last (R120). -/
theorem writeFlaggedBytes_reg_vf (h : s.vfOrder = .flagLast ∨ x ≠ vf ∧ y ≠ vf) :
    (s.writeFlaggedBytes x y flag result).reg vf = flag (s.reg x) (s.reg y) := by
  rw [writeFlaggedBytes_flag_last h, reg_setReg_self]

/-- `Vx`, not being `VF`, ends as the result on the old bytes where the flag is written last (R120). -/
theorem writeFlaggedBytes_reg_dest (hx : x ≠ vf) (h : s.vfOrder = .flagLast ∨ y ≠ vf) :
    (s.writeFlaggedBytes x y flag result).reg x = result (s.reg x) (s.reg y) := by
  rw [writeFlaggedBytes_flag_last (h.imp_right fun hy => ⟨hx, hy⟩), reg_setReg_of_ne _ hx,
    reg_setReg_self]

/-- As written, the result reads an operand that is `VF` as the flag, and overwrites it in `VF` (R120). -/
theorem writeFlaggedBytes_reg_asWritten (h : s.vfOrder = .asWritten) (r : RegIdx) :
    (s.writeFlaggedBytes x y flag result).reg r =
      if r = x then result
        (if x = vf then flag (s.reg x) (s.reg y) else s.reg x)
        (if y = vf then flag (s.reg x) (s.reg y) else s.reg y)
      else if r = vf then flag (s.reg x) (s.reg y) else s.reg r := by
  rw [State.writeFlaggedBytes, writeFlagged_asWritten h]
  simp only [State.reg_setReg]

end FlaggedBytes

/-! ### Subtraction -/

/-- The table of R128 and R130: `d` is the difference of the contents of `Vx` and `Vy`, in either
direction, and `f` its not-borrow. -/
theorem difference_table {s t : State} {x y : RegIdx} {flag result : Byte → Byte → Byte} {f : Nat}
    {d : Nat → Nat → Nat} (ht : t = s.writeFlaggedBytes x y flag result)
    (hflag : (flag (s.reg x) (s.reg y)).toNat = f)
    (hresult : ∀ p q, (result p q).toNat = d p.toNat q.toNat) (hself : d f f = 0) :
    (x ≠ vf → y ≠ vf →
      (t.reg x).toNat = d (s.reg x).toNat (s.reg y).toNat ∧ (t.reg vf).toNat = f) ∧
    (s.vfOrder = .asWritten →
      (x = vf → y ≠ vf → (t.reg vf).toNat = d f (s.reg y).toNat) ∧
      (x ≠ vf → y = vf → (t.reg x).toNat = d (s.reg x).toNat f ∧ (t.reg vf).toNat = f) ∧
      (x = vf → y = vf → (t.reg vf).toNat = 0)) ∧
    (s.vfOrder = .flagLast →
      (x = vf → (t.reg vf).toNat = f) ∧
      (x ≠ vf → y = vf →
        (t.reg x).toNat = d (s.reg x).toNat (s.reg y).toNat ∧ (t.reg vf).toNat = f)) := by
  subst ht hflag
  refine ⟨fun hx hy => ?apart, fun ho => ⟨fun hx hy => ?destVf, fun hx hy => ?sourceVf,
    fun hx hy => ?bothVf⟩, fun ho => ⟨fun _ => ?flagWins, fun hx _ => ?flagLast⟩⟩
  case apart =>
    rw [writeFlaggedBytes_reg_dest hx (.inr hy), writeFlaggedBytes_reg_vf (.inr ⟨hx, hy⟩), hresult]
    exact ⟨rfl, rfl⟩
  case destVf =>
    rw [writeFlaggedBytes_reg_asWritten ho, if_pos hx.symm, if_pos hx, if_neg hy, hresult]
  case sourceVf =>
    rw [writeFlaggedBytes_reg_asWritten ho, writeFlaggedBytes_reg_asWritten ho, if_pos rfl,
      if_neg hx, if_pos hy, if_neg hx.symm, if_pos rfl, hresult]
    exact ⟨rfl, rfl⟩
  case bothVf =>
    rw [writeFlaggedBytes_reg_asWritten ho, if_pos hx.symm, if_pos hx, if_pos hy, hresult, hself]
  case flagWins => rw [writeFlaggedBytes_reg_vf (.inl ho)]
  case flagLast =>
    rw [writeFlaggedBytes_reg_dest hx (.inl ho), writeFlaggedBytes_reg_vf (.inl ho), hresult]
    exact ⟨rfl, rfl⟩

/-- Settles O27: the table of a difference, for `Vx - Vy`. -/
theorem subSetsNotBorrow : Obligations.SubSetsNotBorrow := by
  unfold Obligations.SubSetsNotBorrow
  rw [← vf_eq]
  refine fun x y s => ⟨_, exec_sub x y s, writeFlaggedBytes_frame,
    fun r hx hvf => writeFlaggedBytes_reg_of_ne hx hvf, ?table⟩
  case table =>
    rintro a b f rfl rfl rfl
    exact difference_table (d := fun a b => (a + 256 - b) % 256) rfl (notBorrowFlag_toNat _ _)
      byte_sub_toNat (by rw [Nat.add_sub_cancel_left])

/-- Settles O28: the table of a difference, for `Vy - Vx`. -/
theorem subnSetsNotBorrow : Obligations.SubnSetsNotBorrow := by
  unfold Obligations.SubnSetsNotBorrow
  rw [← vf_eq]
  refine fun x y s => ⟨_, exec_subn x y s, writeFlaggedBytes_frame,
    fun r hx hvf => writeFlaggedBytes_reg_of_ne hx hvf, ?table⟩
  case table =>
    rintro a b f rfl rfl rfl
    exact difference_table (d := fun a b => (b + 256 - a) % 256) rfl (notBorrowFlag_toNat _ _)
      (fun p q => byte_sub_toNat q p) (by rw [Nat.add_sub_cancel_left])

/-! ### Shifts -/

/-- The cases of R129 and R131: `f` is the bit that the shift takes out of `Vx`, `d` the byte shifted, and
`e` the flag shifted. -/
theorem shift_table {s t : State} {x : RegIdx} {flag result : Byte → Byte} {f d e : Nat}
    (ht : t = s.writeFlaggedBytes x x (fun a _ => flag a) (fun a _ => result a))
    (hflag : (flag (s.reg x)).toNat = f) (hresult : (result (s.reg x)).toNat = d)
    (hflagShifted : (result (flag (s.reg x))).toNat = e) :
    (x ≠ vf → (t.reg x).toNat = d ∧ (t.reg vf).toNat = f) ∧
    (x = vf → s.vfOrder = .asWritten → (t.reg vf).toNat = e) ∧
    (x = vf → s.vfOrder = .flagLast → (t.reg vf).toNat = f) := by
  subst ht hflag hresult hflagShifted
  refine ⟨fun hx => ?apart, fun hx ho => ?asWritten, fun _ ho => ?flagLast⟩
  case apart =>
    rw [writeFlaggedBytes_reg_dest hx (.inr hx), writeFlaggedBytes_reg_vf (.inr ⟨hx, hx⟩)]
    exact ⟨rfl, rfl⟩
  case asWritten => rw [writeFlaggedBytes_reg_asWritten ho, if_pos hx.symm, if_pos hx]
  case flagLast => rw [writeFlaggedBytes_reg_vf (.inl ho)]

/-- Settles O29: the cases of a shift, to the right and to the left. -/
theorem shiftsMoveTheLostBitToVf : Obligations.ShiftsMoveTheLostBitToVf := by
  unfold Obligations.ShiftsMoveTheLostBitToVf
  rw [← vf_eq]
  refine fun x y s => ⟨⟨_, exec_shr x y s, writeFlaggedBytes_frame,
      fun r hx hvf => writeFlaggedBytes_reg_of_ne hx hvf,
      shift_table rfl (shrFlag_toNat _) (byte_shr_toNat _) ?shrFlagShifted⟩,
    ⟨_, exec_shl x y s, writeFlaggedBytes_frame,
      fun r hx hvf => writeFlaggedBytes_reg_of_ne hx hvf,
      shift_table rfl (shlFlag_toNat _) (byte_shl_toNat _) ?shlFlagShifted⟩⟩
  case shrFlagShifted =>
    rw [byte_shr_toNat, shrFlag_toNat]
    omega
  case shlFlagShifted =>
    have := (s.reg x).isLt
    rw [byte_shl_toNat, shlFlag_toNat]
    omega

end Sys2Proof.Machine
end

section
/-! The parameter `VF_ORDER` (R120): where `VF` is no operand of SUB, SHR, SUBN or SHL, an instruction does
the same in both readings. -/

namespace Sys2Proof.Machine

/-- The state under the reading `o` of `VF_ORDER`. -/
def State.setVfOrder (s : State) (o : VfOrder) : State := { s with vfOrder := o }

@[simp] theorem State.reg_setVfOrder (s : State) (o : VfOrder) (r : RegIdx) :
    (s.setVfOrder o).reg r = s.reg r := rfl

/-- A function of states on the next state, if there is one. -/
def mapNext (g : State → State) :
    Host.Outcome State Fault Refusal → Host.Outcome State Fault Refusal
  | .next t => .next (g t)
  | .fault f => .fault f
  | .refused r => .refused r

/-! ### The operations do not read the parameter -/

theorem skipIf_setVfOrder (s : State) (o : VfOrder) (c : Bool) :
    (s.setVfOrder o).skipIf c = (s.skipIf c).setVfOrder o := by
  cases c <;> rfl

theorem pop_setVfOrder (s : State) (o : VfOrder) :
    pop (s.setVfOrder o) = (pop s).map fun r => (r.1, r.2.setVfOrder o) := by
  unfold pop State.setVfOrder
  dsimp only
  split <;> rfl

theorem push_setVfOrder (s : State) (o : VfOrder) (w : Word) :
    push (s.setVfOrder o) w = (push s w).map (·.setVfOrder o) := by
  unfold push State.setVfOrder
  dsimp only
  split <;> rfl

theorem draw_setVfOrder (s : State) (o : VfOrder) :
    (s.setVfOrder o).draw = (s.draw.1, s.draw.2.setVfOrder o) := by
  unfold State.draw State.setVfOrder
  dsimp only
  split <;> rfl

theorem storeBytes_setVfOrder (o : VfOrder) : ∀ (bs : List Byte) (a : Nat) (s : State),
    storeBytes a bs (s.setVfOrder o) = (storeBytes a bs s).setVfOrder o
  | [], _, _ => rfl
  | b :: bs, a, s => by
    by_cases ha : a < 4096
    · simp only [storeBytes, memWrite_of_lt ha]
      exact storeBytes_setVfOrder o bs (a + 1) (s.storeByte a b)
    · simp only [storeBytes, memWrite_of_le (Nat.not_lt.1 ha)]
      rfl

theorem loadRegs_setVfOrder (o : VfOrder) : ∀ (rs : List RegIdx) (a : Nat) (s : State),
    loadRegs a rs (s.setVfOrder o) = (loadRegs a rs s).setVfOrder o
  | [], _, _ => rfl
  | r :: rs, a, s => by
    by_cases ha : a < 4096
    · simp only [loadRegs, memRead_of_lt ha]
      exact loadRegs_setVfOrder o rs (a + 1) (s.setReg r (s.mem.get a))
    · simp only [loadRegs, memRead_of_le (Nat.not_lt.1 ha)]
      rfl

/-- The two writes read the parameter only where `VF` is an operand. -/
theorem writeFlaggedBytes_setVfOrder {s : State} {x y : RegIdx} {flag result : Byte → Byte → Byte}
    (hx : x ≠ vf) (hy : y ≠ vf) (o : VfOrder) :
    (s.setVfOrder o).writeFlaggedBytes x y flag result =
      (s.writeFlaggedBytes x y flag result).setVfOrder o := by
  rw [writeFlaggedBytes_of_ne hx hy, writeFlaggedBytes_of_ne hx hy]
  rfl

/-! ### The instructions -/

theorem exec_setVfOrder_of_writeFlaggedBytes {i : Instr} {x y : RegIdx}
    {flag result : Byte → Byte → Byte}
    (hexec : ∀ s, exec i s = .next (s.writeFlaggedBytes x y flag result)) (hx : x ≠ vf) (hy : y ≠ vf)
    (s : State) (o : VfOrder) : exec i (s.setVfOrder o) = mapNext (·.setVfOrder o) (exec i s) := by
  rw [hexec, hexec, writeFlaggedBytes_setVfOrder hx hy]
  rfl

/-- An instruction that has not `VF` for an operand of SUB, SHR, SUBN or SHL does the same under any
reading of `VF_ORDER` (R120). -/
theorem exec_setVfOrder {i : Instr}
    (hi : ∀ x y, i = .sub x y ∨ i = .shr x y ∨ i = .subn x y ∨ i = .shl x y → x ≠ vf ∧ y ≠ vf)
    (s : State) (o : VfOrder) : exec i (s.setVfOrder o) = mapNext (·.setVfOrder o) (exec i s) := by
  cases i with
  | sub x y =>
    obtain ⟨hx, hy⟩ := hi x y (.inl rfl)
    exact exec_setVfOrder_of_writeFlaggedBytes (exec_sub x y) hx hy s o
  | shr x y =>
    obtain ⟨hx, -⟩ := hi x y (.inr (.inl rfl))
    exact exec_setVfOrder_of_writeFlaggedBytes (exec_shr x y) hx hx s o
  | subn x y =>
    obtain ⟨hx, hy⟩ := hi x y (.inr (.inr (.inl rfl)))
    exact exec_setVfOrder_of_writeFlaggedBytes (exec_subn x y) hx hy s o
  | shl x y =>
    obtain ⟨hx, -⟩ := hi x y (.inr (.inr (.inr rfl)))
    exact exec_setVfOrder_of_writeFlaggedBytes (exec_shl x y) hx hx s o
  | ret =>
    simp only [exec, execRet, pop_setVfOrder]
    cases pop s <;> rfl
  | call nnn =>
    have hpush : push (s.setVfOrder o) (s.setVfOrder o).pc = (push s s.pc).map (·.setVfOrder o) :=
      push_setVfOrder s o s.pc
    simp only [exec, execCall, hpush]
    cases push s s.pc <;> rfl
  | seImm | sneImm | seReg | sneReg => exact congrArg _ (skipIf_setVfOrder s o _)
  | skp x =>
    simp only [exec, execSkp, State.reg_setVfOrder, skipIf_setVfOrder]
    cases keyOf (s.reg x) <;> rfl
  | sknp x =>
    simp only [exec, execSknp, State.reg_setVfOrder, skipIf_setVfOrder]
    cases keyOf (s.reg x) <;> rfl
  | drw x y n =>
    have hread : readBytes (s.setVfOrder o).mem ((s.setVfOrder o).indexAddr 0) n =
      readBytes s.mem (s.indexAddr 0) n := rfl
    simp only [exec, execDrw, hread]
    cases readBytes s.mem (s.indexAddr 0) n <;> rfl
  | rnd x kk =>
    simp only [exec, execRnd, draw_setVfOrder]
    rfl
  | ldB | ldMemVx => exact congrArg _ (storeBytes_setVfOrder o _ _ s)
  | ldVxMem => exact congrArg _ (loadRegs_setVfOrder o _ _ s)
  | cls | jp | jpV0 | ldImm | addImm | ldReg | orReg | andReg | xorReg | addReg | ldI | addI | ldF
  | ldVxDt | ldVxK | ldDtVx | ldStVx => rfl

/-- Settles O30: the second execution is the first with the parameter set. -/
theorem vfOrderMattersOnlyWhenVfIsAnOperand : Obligations.VfOrderMattersOnlyWhenVfIsAnOperand := by
  unfold Obligations.VfOrderMattersOnlyWhenVfIsAnOperand
  intro i s t u hi ht hu
  obtain ⟨_, _, horder, _⟩ := onlyControlFlowWritesPc i _ t ht
  have hset := exec_setVfOrder hi { s with vfOrder := .asWritten } .flagLast
  rw [ht] at hset
  exact ⟨horder, Host.Outcome.next.inj (hu.symm.trans hset)⟩

end Sys2Proof.Machine
end

section
/-! Index register and memory (R140 to R146): what LD_I, ADD_I and LD_F leave in `I`, what LD_B and
LD_MEM_VX store, what LD_VX_MEM loads, and the register block stored and loaded back. -/

namespace Sys2Proof.Machine

/-! ### The index register -/

/-- Settles O31: each is a write of `I`; ADD_I writes a 16-bit sum, and 5 times a byte is below 65536. -/
theorem indexRegisterWrites : Obligations.IndexRegisterWrites := by
  unfold Obligations.IndexRegisterWrites
  refine fun s => ⟨fun _ => rfl, fun x => ⟨s.setI (s.i + zext16 (s.reg x)), rfl, rfl, ?sum⟩,
    fun x => ⟨s.setI (BitVec.ofNat 16 ((s.reg x).toNat * 5)), rfl, rfl, ?product⟩⟩
  case sum => exact toNat_add_zext16 s.i (s.reg x)
  case product =>
    have hx := (s.reg x).isLt
    rw [State.setI_i, BitVec.toNat_ofNat]
    omega

/-! ### Bytes stored -/

theorem exec_ldB (x : RegIdx) (s : State) :
    exec (.ldB x) s = .next (storeBytes s.i.toNat (bcdDigits (s.reg x)) s) := rfl

theorem exec_ldMemVx (x : RegIdx) (s : State) :
    exec (.ldMemVx x) s = .next (storeBytes s.i.toNat (s.regBytes x) s) := rfl

section Store

variable {s : State} {bs : List Byte} {a : Nat}

/-- A byte stored is read back at its address, where that is inside memory (R51). -/
theorem storeBytes_get_add (hwf : s.mem.wf = true) {j : Nat} (hj : j < bs.length) (ha : a + j < 4096) :
    (storeBytes a bs s).mem.get (a + j) = bs.getD j 0 := by
  obtain ⟨-, -, -, hget⟩ := storeBytes_spec (a := a) (bs := bs) hwf
  rw [hget, if_pos ⟨Nat.le_add_right a j, Nat.add_lt_add_left hj a, ha⟩, Nat.add_sub_cancel_left]

/-- The store of `n + 1` bytes does not fault, or faults at the first address outside memory, and changes
no byte but those at `a`, ..., `a + n` inside it (R51, R205). -/
theorem storeBytes_succ {n : Nat} (hwf : s.mem.wf = true) (hlen : bs.length = n + 1) :
    (a + n < 4096 → (storeBytes a bs s).run = s.run) ∧
    (a + n ≥ 4096 → (storeBytes a bs s).run = .faulted (.outOfBounds .write (max a 4096))) ∧
    ∀ c, ¬(a ≤ c ∧ c ≤ a + n ∧ c < 4096) → (storeBytes a bs s).mem.get c = s.mem.get c := by
  obtain ⟨-, hrun, -, hget⟩ := storeBytes_spec (a := a) (bs := bs) hwf
  have hne : bs ≠ [] := List.ne_nil_of_length_eq_add_one hlen
  rw [hlen] at hrun hget
  refine ⟨fun hin => ?inside, fun hout => ?outside, fun c hc => ?others⟩
  case inside => rw [hrun, if_pos (.inl hin)]
  case outside => rw [hrun, if_neg (not_or.2 ⟨by omega, hne⟩)]
  case others => rw [hget, if_neg (by omega)]

end Store

/-- The decimal digits of a byte, as numbers (R143). -/
theorem bcdDigits_toNat (b : Byte) :
    ((bcdDigits b).getD 0 0).toNat = b.toNat / 100 ∧
    ((bcdDigits b).getD 1 0).toNat = b.toNat / 10 % 10 ∧
    ((bcdDigits b).getD 2 0).toNat = b.toNat % 10 := by
  have hb := b.isLt
  simp only [bcdDigits, List.getD_cons_zero, List.getD_cons_succ, BitVec.toNat_ofNat]
  omega

/-- Settles O32: LD_B is the store of three bytes, the digits. -/
theorem bcdDigitsAreStored : Obligations.BcdDigitsAreStored := by
  unfold Obligations.BcdDigitsAreStored
  intro x s hwf
  obtain ⟨hin, hout, hothers⟩ := storeBytes_succ (a := s.i.toNat) hwf (bcdDigits_length (s.reg x))
  obtain ⟨hundreds, tens, units⟩ := bcdDigits_toNat (s.reg x)
  have hdigit : ∀ j, j < 3 → s.i.toNat + j < 4096 →
      (storeBytes s.i.toNat (bcdDigits (s.reg x)) s).mem.get (s.i.toNat + j) =
        (bcdDigits (s.reg x)).getD j 0 := fun _ hj h => storeBytes_get_add hwf hj h
  refine ⟨_, exec_ldB x s, storeBytes_frame _ _ s, hin, hout, fun h => ?hundreds, fun h => ?tens,
    fun h => ?units, hothers⟩
  case hundreds => exact (congrArg _ (hdigit 0 (by decide) h)).trans hundreds
  case tens => rw [hdigit 1 (by decide) h, tens]
  case units => rw [hdigit 2 (by decide) h, units]

/-- Settles O33: LD_MEM_VX is the store of `x + 1` bytes, the registers. -/
theorem registerBlockIsStored : Obligations.RegisterBlockIsStored := by
  unfold Obligations.RegisterBlockIsStored
  intro x s hwf
  obtain ⟨hin, hout, hothers⟩ := storeBytes_succ (a := s.i.toNat) hwf (regBytes_length s x)
  exact ⟨_, exec_ldMemVx x s, storeBytes_frame _ _ s, hin, hout,
    fun _ hr h => get_storeBytes_regBytes hwf hr h, hothers⟩

/-! ### Registers loaded -/

theorem exec_ldVxMem (x : RegIdx) (s : State) :
    exec (.ldVxMem x) s = .next (loadRegs s.i.toNat (regBlock x) s) := rfl

/-- A register of a loaded block holds the byte at its address, where that is inside memory, and every
other register its old content (R145). -/
theorem loadRegs_regBlock_reg (a : Nat) (x r : RegIdx) (s : State) :
    (loadRegs a (regBlock x) s).reg r =
      if r ≤ x ∧ a + r.val < 4096 then s.mem.get (a + r.val) else s.reg r := by
  by_cases hr : r ≤ x
  · have hlen : r.val < (regBlock x).length := by
      rw [regBlock_length]
      exact Nat.lt_succ_of_le hr
    have hnth : (regBlock x)[r.val] = r := Fin.ext (regBlock_getElem x r.val hlen)
    have hload := loadRegs_reg_get (a := a) (s := s) (regBlock_nodup x) r.val hlen
    rw [hnth] at hload
    simp only [hload, hr, true_and]
  · rw [loadRegs_reg_of_notMem (mt mem_regBlock.1 hr), if_neg (fun h => hr h.1)]

/-- Settles O34: LD_VX_MEM is the load of the block `V0`, ..., `Vx`. -/
theorem registerBlockIsLoaded : Obligations.RegisterBlockIsLoaded := by
  unfold Obligations.RegisterBlockIsLoaded
  intro x s
  have hrun := loadRegs_run (rs := regBlock x) (a := s.i.toNat) (s := s)
  have hne : regBlock x ≠ [] := List.ne_nil_of_mem (mem_regBlock.2 le_rfl)
  rw [regBlock_length] at hrun
  refine ⟨_, exec_ldVxMem x s, loadRegs_frame _ _ s, fun hin => ?inside, fun hout => ?outside,
    fun r => loadRegs_regBlock_reg _ x r s⟩
  case inside => rw [hrun, if_pos (.inl hin)]
  case outside => rw [hrun, if_neg (not_or.2 ⟨by omega, hne⟩)]

/-! ### Stored and loaded back -/

/-- Settles O35: each register loaded is the byte at its address, and that byte is the register stored. -/
theorem storeThenLoadRestoresRegisters : Obligations.StoreThenLoadRestoresRegisters := by
  unfold Obligations.StoreThenLoadRestoresRegisters
  intro x s hwf hin
  refine ⟨_, exec_ldMemVx x s, fun u hi hmem => ⟨_, exec_ldVxMem x u, fun r hr => ?_⟩⟩
  have hrx : s.i.toNat + r.val ≤ s.i.toNat + x.val := Nat.add_le_add_left hr _
  have hlt : s.i.toNat + r.val < 4096 := hrx.trans_lt hin
  rw [hi, loadRegs_regBlock_reg, if_pos ⟨hr, hlt⟩, hmem _ (Nat.le_add_right _ _) hrx,
    get_storeBytes_regBytes hwf hr hlt]

end Sys2Proof.Machine
end

section
/-! Graphics (R160 to R166): what CLS and DRW leave in each pixel and in `VF`, a sprite drawn twice, and
that nothing else changes a pixel. -/

namespace Sys2Proof.Machine

/-- Settles O37: CLS is a write of the framebuffer, and every pixel of the cleared one is unset. -/
theorem clearUnsetsEveryPixel : Obligations.ClearUnsetsEveryPixel := by
  unfold Obligations.ClearUnsetsEveryPixel
  exact fun s => ⟨s.setFb Framebuffer.clear, rfl, rfl, isSet_clear⟩

/-! ### The blit -/

section Blit

variable {fb : Framebuffer} {x y : Nat} {bs : List Byte}

/-- A pixel under bit `c` of sprite row `r` is XORed with that bit (R162). -/
theorem isSet_blit_of_under {px py r c : Nat} (hlen : bs.length ≤ 32) (hr : r < bs.length) (hc : c < 8)
    (hpx : px % 64 = (x + c) % 64) (hpy : py % 32 = (y + r) % 32) :
    (blit fb x y bs).2.isSet px py = (fb.isSet px py ^^ spriteBit (bs.getD r 0) c) := by
  rw [isSet_congr _ hpx hpy, isSet_congr fb hpx hpy]
  exact blitRows_at hc hlen hr

/-- A pixel under no bit of the sprite is unchanged (R162). -/
theorem isSet_blit_of_not_under {px py : Nat}
    (h : ∀ r < bs.length, ∀ c < 8, ¬(px % 64 = (x + c) % 64 ∧ py % 32 = (y + r) % 32)) :
    (blit fb x y bs).2.isSet px py = fb.isSet px py :=
  blitRows_off h

/-- The blit collides exactly when some 1 bit lies on a set pixel (R162). -/
theorem blit_collision (hlen : bs.length ≤ 32) :
    (blit fb x y bs).1 = true ↔ ∃ r < bs.length, ∃ c < 8,
      spriteBit (bs.getD r 0) c = true ∧ fb.isSet (x + c) (y + r) = true :=
  (blitRows_collision hlen).trans (or_iff_right Bool.false_ne_true)

/-- A second blit of the same sprite restores every pixel: `p ^ b ^ b = p` (R165). -/
theorem blit_blit_fb (hlen : bs.length ≤ 32) : (blit (blit fb x y bs).2 x y bs).2 = fb := by
  apply framebuffer_ext
  intro px py
  by_cases h : ∃ r < bs.length, ∃ c < 8, px % 64 = (x + c) % 64 ∧ py % 32 = (y + r) % 32
  · obtain ⟨r, hr, c, hc, hpx, hpy⟩ := h
    rw [isSet_blit_of_under hlen hr hc hpx hpy, isSet_blit_of_under hlen hr hc hpx hpy, Bool.xor_assoc,
      Bool.xor_self, Bool.xor_false]
  · have hoff : ∀ r < bs.length, ∀ c < 8, ¬(px % 64 = (x + c) % 64 ∧ py % 32 = (y + r) % 32) :=
      fun r hr c hc hp => h ⟨r, hr, c, hc, hp⟩
    rw [isSet_blit_of_not_under hoff, isSet_blit_of_not_under hoff]

/-- A second blit of the same sprite collides exactly when some 1 bit lay on an unset pixel: a pixel `p`
under a 1 bit reads `p ^ 1` after the first (R165). -/
theorem blit_blit_collision (hlen : bs.length ≤ 32) :
    (blit (blit fb x y bs).2 x y bs).1 = true ↔ ∃ r < bs.length, ∃ c < 8,
      spriteBit (bs.getD r 0) c = true ∧ fb.isSet (x + c) (y + r) = false := by
  rw [blit_collision hlen]
  refine exists_congr fun r => and_congr_right fun hr => exists_congr fun c =>
    and_congr_right fun hc => and_congr_right fun hbit => ?_
  rw [isSet_blit_of_under hlen hr hc rfl rfl, hbit, Bool.xor_true, Bool.not_eq_true']

end Blit

/-! ### DRW -/

/-- The sprite that DRW reads: the `n` bytes from `I` on (R164). -/
def State.sprite (s : State) (n : Nat) : List Byte := (List.range' s.i.toNat n).map s.mem.get

/-- The blit of DRW: its sprite at column `Vx`, row `Vy` (R164). -/
def State.spriteBlit (s : State) (x y : RegIdx) (n : Nat) : Bool × Framebuffer :=
  blit s.fb (s.reg x).toNat (s.reg y).toNat (s.sprite n)

/-- What DRW leaves where its sprite is all in memory: the new framebuffer, and the collision in `VF`
(R164). -/
def State.drawSprite (s : State) (x y : RegIdx) (n : Nat) : State :=
  (s.setFb (s.spriteBlit x y n).2).setReg vf (flagByte (s.spriteBlit x y n).1)

@[simp] theorem length_sprite (s : State) (n : Nat) : (s.sprite n).length = n := by
  simp [State.sprite]

/-- A sprite has fewer rows than the framebuffer, so no two of them fall on one row (R162). -/
theorem length_sprite_le (s : State) {n : Nat} (h : n < 16) : (s.sprite n).length ≤ 32 := by
  rw [length_sprite]
  omega

/-- Row `r` of the sprite is the byte at `I + r` (R164). -/
theorem sprite_getD {s : State} {n r : Nat} (h : r < n) :
    (s.sprite n).getD r 0 = s.mem.get (s.i.toNat + r) := by
  simp [State.sprite, List.getD_eq_getElem?_getD, h]

/-- DRW with its sprite in memory (R164). -/
theorem exec_drw_of_le {x y : RegIdx} {n : Nat} {s : State} (h : n = 0 ∨ s.i.toNat + n ≤ 4096) :
    exec (.drw x y n) s = .next (s.drawSprite x y n) := by
  simp only [exec, execDrw, indexAddr_zero, readBytes_ok h.symm]
  rfl

theorem eq_drawSprite_of_exec {x y : RegIdx} {n : Nat} {s t : State}
    (h : n = 0 ∨ s.i.toNat + n ≤ 4096) (ht : exec (.drw x y n) s = .next t) :
    t = s.drawSprite x y n :=
  Host.Outcome.next.inj (ht.symm.trans (exec_drw_of_le h))

/-- DRW with a sprite that leaves memory (R164, R205). -/
theorem exec_drw_of_lt {x y : RegIdx} {n : Nat} {s : State} (hn : 0 < n) (h : 4096 < s.i.toNat + n) :
    exec (.drw x y n) s = .next (s.raise (.outOfBounds .read (max s.i.toNat 4096))) := by
  simp only [exec, execDrw, indexAddr_zero, readBytes_error hn h]

theorem flagByte_eq_one_iff (b : Bool) : flagByte b = 1 ↔ b = true := by
  cases b <;> decide

theorem flagByte_eq_zero_or_one (b : Bool) : flagByte b = 0 ∨ flagByte b = 1 := by
  cases b
  · exact .inl rfl
  · exact .inr rfl

section DrawSprite

variable {x y : RegIdx} {n : Nat} {s : State}

theorem drawSprite_reg_vf : (s.drawSprite x y n).reg vf = flagByte (s.spriteBlit x y n).1 :=
  reg_setReg_self _ _ _

theorem drawSprite_reg_vf_eq_one_iff :
    (s.drawSprite x y n).reg vf = 1 ↔ (s.spriteBlit x y n).1 = true := by
  rw [drawSprite_reg_vf, flagByte_eq_one_iff]

theorem drawSprite_reg_of_ne {r : RegIdx} (h : r ≠ vf) : (s.drawSprite x y n).reg r = s.reg r :=
  reg_setReg_of_ne _ h

/-- At the same coordinates the second DRW blits the sprite of the first onto what the first left: DRW
changes neither `I` nor memory. -/
theorem spriteBlit_drawSprite (hx : (s.drawSprite x y n).reg x = s.reg x)
    (hy : (s.drawSprite x y n).reg y = s.reg y) :
    (s.drawSprite x y n).spriteBlit x y n =
      blit (s.spriteBlit x y n).2 (s.reg x).toNat (s.reg y).toNat (s.sprite n) := by
  rw [State.spriteBlit, hx, hy]
  rfl

/-- Over the rows of the sprite: a condition on its bits is one on the bytes from `I` on. -/
theorem exists_spriteBit_iff {p : Nat → Nat → Prop} :
    (∃ r < (s.sprite n).length, ∃ c < 8, spriteBit ((s.sprite n).getD r 0) c = true ∧ p r c) ↔
      ∃ r < n, ∃ c < 8, (s.mem.get (s.i.toNat + r)).getLsbD (7 - c) = true ∧ p r c := by
  rw [length_sprite]
  refine exists_congr fun r => and_congr_right fun hr => ?_
  rw [sprite_getD hr]
  rfl

/-- DRW collides exactly when some 1 bit of its sprite lies on a set pixel (R162, R164). -/
theorem spriteBlit_collision (hn : n < 16) :
    (s.spriteBlit x y n).1 = true ↔ ∃ row < n, ∃ col < 8,
      (s.mem.get (s.i.toNat + row)).getLsbD (7 - col) = true ∧
      s.pixel ((s.reg x).toNat + col) ((s.reg y).toNat + row) = true :=
  (blit_collision (length_sprite_le s hn)).trans exists_spriteBit_iff

end DrawSprite

/-- Settles O38: DRW is the blit of its sprite, which says each pixel and the collision. -/
theorem drawXorsTheSprite : Obligations.DrawXorsTheSprite := by
  unfold Obligations.DrawXorsTheSprite
  rw [← vf_eq]
  intro x y n s hn hin
  have hlen := length_sprite_le s hn
  refine ⟨s.drawSprite x y n, exec_drw_of_le hin, rfl, fun r hr => drawSprite_reg_of_ne hr,
    fun row hrow col hcol => ?under, fun px hpx py hpy hoff => ?off, ?flag,
    drawSprite_reg_vf_eq_one_iff.trans (spriteBlit_collision hn)⟩
  case under =>
    rw [← sprite_getD hrow]
    exact isSet_blit_of_under hlen (by rwa [length_sprite]) hcol rfl rfl
  case off =>
    refine isSet_blit_of_not_under fun row hrow col hcol => ?_
    rw [Nat.mod_eq_of_lt hpx, Nat.mod_eq_of_lt hpy]
    exact hoff row (by rwa [length_sprite] at hrow) col hcol
  case flag =>
    rw [drawSprite_reg_vf]
    exact flagByte_eq_zero_or_one _

/-- Settles O39: the reads fail at the first address outside memory, before any pixel is drawn. -/
theorem drawOutsideMemoryFaultsUndrawn : Obligations.DrawOutsideMemoryFaultsUndrawn := by
  unfold Obligations.DrawOutsideMemoryFaultsUndrawn
  exact fun _ _ _ _ hn hout => exec_drw_of_lt hn hout

/-- Settles O40: the second draw is a second blit of the same sprite. -/
theorem drawingTwiceRestoresTheFramebuffer : Obligations.DrawingTwiceRestoresTheFramebuffer := by
  unfold Obligations.DrawingTwiceRestoresTheFramebuffer
  rw [← vf_eq]
  intro x y n s t u hn hin ht hx hy hu
  have hlen := length_sprite_le s hn
  obtain rfl := eq_drawSprite_of_exec hin ht
  obtain rfl := eq_drawSprite_of_exec (s := s.drawSprite x y n) hin hu
  have hsecond := spriteBlit_drawSprite hx hy
  refine ⟨?restored, drawSprite_reg_vf_eq_one_iff.trans (spriteBlit_collision hn), ?second⟩
  case restored => exact (congrArg Prod.snd hsecond).trans (blit_blit_fb hlen)
  case second =>
    rw [drawSprite_reg_vf_eq_one_iff, hsecond]
    exact (blit_blit_collision hlen).trans exists_spriteBit_iff

/-! ### What changes no pixel -/

@[simp] theorem skipIf_fb (s : State) (c : Bool) : (s.skipIf c).fb = s.fb := by
  cases c <;> rfl

@[simp] theorem writeFlagged_fb (s : State) (x : RegIdx) (flag result : State → Byte) :
    (s.writeFlagged x flag result).fb = s.fb := by
  rw [writeFlagged_frame]

@[simp] theorem storeBytes_fb (a : Nat) (bs : List Byte) (s : State) :
    (storeBytes a bs s).fb = s.fb := by
  rw [storeBytes_frame]

@[simp] theorem loadRegs_fb (a : Nat) (rs : List RegIdx) (s : State) :
    (loadRegs a rs s).fb = s.fb := by
  rw [loadRegs_frame]

@[simp] theorem applyEvents_fb (es : List Event) (s : State) : (s.applyEvents es).fb = s.fb := by
  rw [applyEvents_frame]

theorem pop_fb {s s' : State} {w : Word} (h : pop s = .ok (w, s')) : s'.fb = s.fb := by
  rw [(pop_frame h).1]

theorem push_fb {s s' : State} {w : Word} (h : push s w = .ok s') : s'.fb = s.fb := by
  rw [(push_frame h).1]

/-- Only CLS and DRW change the framebuffer (R166). -/
theorem exec_fb {i : Instr} {s t : State} (h : exec i s = .next t) (hcls : i ≠ .cls)
    (hdrw : ∀ x y n, i ≠ .drw x y n) : t.fb = s.fb := by
  cases i with
  | cls => exact absurd rfl hcls
  | drw x y n => exact absurd rfl (hdrw x y n)
  | ret =>
    rcases hpop : pop s with f | ⟨w, s'⟩
    · cases (exec_ret_of_pop_error hpop).symm.trans h; rfl
    · cases (exec_ret_of_pop_ok hpop).symm.trans h; exact (State.setPc_fb ..).trans (pop_fb hpop)
  | call nnn =>
    rcases hpush : push s s.pc with f | s'
    · cases (exec_call_of_push_error hpush).symm.trans h; rfl
    · cases (exec_call_of_push_ok hpush).symm.trans h; exact (State.setPc_fb ..).trans (push_fb hpush)
  | skp x | sknp x =>
    simp only [exec, execSkp, execSknp] at h
    split at h <;> cases h
    · rfl
    · exact skipIf_fb ..
  | seImm | sneImm | seReg | sneReg => cases h; exact skipIf_fb ..
  | sub | shr | subn | shl => cases h; exact writeFlagged_fb ..
  | rnd => cases h; exact State.draw_fb s
  | ldB | ldMemVx => cases h; exact storeBytes_fb ..
  | ldVxMem => cases h; exact loadRegs_fb ..
  | jp | jpV0 | ldImm | addImm | ldReg | orReg | andReg | xorReg | addReg | ldI | ldVxDt | ldVxK
  | ldDtVx | ldStVx | addI | ldF => cases h; rfl

/-- Settles O47: neither another instruction nor an event changes the framebuffer. -/
theorem onlyClearAndDrawChangePixels : Obligations.OnlyClearAndDrawChangePixels := by
  unfold Obligations.OnlyClearAndDrawChangePixels
  refine ⟨fun i s t h hcls hdrw px py => ?instruction, fun es s px py => ?events⟩
  case instruction => rw [State.pixel, exec_fb h hcls hdrw, State.pixel]
  case events => rw [State.pixel, applyEvents_fb, State.pixel]

end Sys2Proof.Machine
end

section
/-! Random byte, keypad and timers (R180 to R188): the byte RND leaves, the key skips, the key wait and
the timer moves. -/

namespace Sys2Proof.Machine

/-! ### The random byte -/

/-- A draw while bytes are listed (R180). -/
theorem draw_of_cons {s : State} {b : Byte} {rest : List Byte} (h : s.rand = b :: rest) :
    s.draw = (b, { s with rand := rest }) := by
  simp only [State.draw, h]

/-- A draw past the listed bytes (R180). -/
theorem draw_of_nil {s : State} (h : s.rand = []) :
    s.draw = (Config.randomByte s.draws, { s with draws := s.draws + 1 }) := by
  simp only [State.draw, h]

/-- What RND leaves: the draw consumed, and the drawn byte AND `kk` in `Vx` (R181). -/
def State.drawMasked (s : State) (x : RegIdx) (kk : Byte) : State :=
  s.draw.2.setReg x (s.draw.1 &&& kk)

theorem exec_rnd (x : RegIdx) (kk : Byte) (s : State) :
    exec (.rnd x kk) s = .next (s.drawMasked x kk) := rfl

section DrawMasked

variable {x : RegIdx} {kk : Byte} {s : State}

theorem drawMasked_of_cons {b : Byte} {rest : List Byte} (h : s.rand = b :: rest) :
    s.drawMasked x kk = ({ s with rand := rest } : State).setReg x (b &&& kk) := by
  rw [State.drawMasked, draw_of_cons h]

theorem drawMasked_of_nil (h : s.rand = []) :
    s.drawMasked x kk =
      ({ s with draws := s.draws + 1 } : State).setReg x (Config.randomByte s.draws &&& kk) := by
  rw [State.drawMasked, draw_of_nil h]

theorem drawMasked_frame : s.drawMasked x kk =
    { s with v := (s.drawMasked x kk).v, rand := (s.drawMasked x kk).rand,
             draws := (s.drawMasked x kk).draws } := by
  rcases h : s.rand with _ | ⟨b, rest⟩
  · rw [drawMasked_of_nil h]; rfl
  · rw [drawMasked_of_cons h]; rfl

theorem drawMasked_reg_dest : (s.drawMasked x kk).reg x = s.draw.1 &&& kk :=
  reg_setReg_self _ _ _

theorem drawMasked_reg_of_ne {r : RegIdx} (h : r ≠ x) : (s.drawMasked x kk).reg r = s.reg r :=
  (reg_setReg_of_ne _ h).trans (State.reg_draw s r)

end DrawMasked

/-- Settles O41: RND is a draw, then a write of the drawn byte AND `kk`. -/
theorem randomByteIsMasked : Obligations.RandomByteIsMasked := by
  unfold Obligations.RandomByteIsMasked
  refine fun x kk s => ⟨s.drawMasked x kk, exec_rnd x kk s, drawMasked_frame,
    fun r hr => drawMasked_reg_of_ne hr, fun b rest h => ?listed, fun h => ?free,
    fun j _ hj => ?cleared⟩
  case listed =>
    rw [drawMasked_of_cons h]
    exact ⟨rfl, rfl, fun j _ => by rw [reg_setReg_self, BitVec.getLsbD_and]⟩
  case free =>
    rw [drawMasked_of_nil h]
    exact ⟨h, rfl, reg_setReg_self _ _ _⟩
  case cleared => rw [drawMasked_reg_dest, BitVec.getLsbD_and, hj, Bool.and_false]

/-! ### The key skips -/

/-- A conditional skip on naturals (R104). -/
theorem skipIf_eq (s : State) (c : Bool) :
    s.skipIf c = { s with pc := BitVec.ofNat 16 (s.pc.toNat + if c then 2 else 0) } := by
  cases c
  · simp [State.skipIf]
  · exact skip_eq s

theorem keyOf_of_toNat_eq {b : Byte} {k : KeyIdx} (h : b.toNat = k.val) : keyOf b = .ok k := by
  rw [keyOf_of_lt (h ▸ k.isLt)]
  exact congrArg _ (Fin.ext h)

/-- SKP and SKNP where `Vx` names a key (R182, R183). -/
theorem exec_keySkips_of_key {x : RegIdx} {s : State} {k : KeyIdx} (h : (s.reg x).toNat = k.val) :
    exec (.skp x) s = .next (s.skipIf (s.isDown k)) ∧
      exec (.sknp x) s = .next (s.skipIf (!s.isDown k)) := by
  simp only [exec, execSkp, execSknp, keyOf_of_toNat_eq h, and_self]

/-- SKP and SKNP where `Vx` names no key (R188). -/
theorem exec_keySkips_of_no_key {x : RegIdx} {s : State} (h : 16 ≤ (s.reg x).toNat) :
    exec (.skp x) s = .next (s.raise (.keyIndexUndefined (s.reg x))) ∧
      exec (.sknp x) s = .next (s.raise (.keyIndexUndefined (s.reg x))) := by
  simp only [exec, execSkp, execSknp, keyOf_of_le h, and_self]

/-- Settles O42: on a key, SKP skips on its bit and SKNP on the negation of it; else both raise. -/
theorem keySkipsReadTheKeypad : Obligations.KeySkipsReadTheKeypad := by
  unfold Obligations.KeySkipsReadTheKeypad
  refine fun x s => ⟨fun k hk => ?key, fun h => exec_keySkips_of_no_key h⟩
  case key =>
    obtain ⟨hskp, hsknp⟩ := exec_keySkips_of_key hk
    rw [hskp, hsknp, skipIf_eq, skipIf_eq, State.isDown]
    refine ⟨rfl, ?_⟩
    cases s.key.getLsbD k.val <;> rfl

/-! ### The key wait -/

/-- Settles O43: the press of `k` marks `k` down, writes its number to `Vx` and sets the machine
running. -/
theorem keyWaitIsEnteredAndCompleted : Obligations.KeyWaitIsEnteredAndCompleted := by
  unfold Obligations.KeyWaitIsEnteredAndCompleted
  refine fun x s => ⟨rfl, fun k => ⟨_, applyEvent_keyDown_waiting rfl k, rfl, ?number,
    fun r hr => ?others, fun j => isDown_setKey s k j true⟩⟩
  case number =>
    rw [State.reg_setRun, reg_setReg_self, BitVec.toNat_ofNat]
    exact Nat.mod_eq_of_lt (k.isLt.trans (by decide))
  case others => exact reg_setReg_of_ne _ hr

/-! ### The timers -/

/-- Settles O44: LD_VX_DT is a write of `Vx`, the other two are writes of a timer. -/
theorem timerMoves : Obligations.TimerMoves := by
  unfold Obligations.TimerMoves
  exact fun x s => ⟨⟨s.setReg x s.dt, rfl, rfl, fun r => State.reg_setReg s x r s.dt⟩, rfl, rfl⟩

end Sys2Proof.Machine
end

section
/-! Events (R201, R206, R207, R212 to R215): what each event can do to a state, what any number of them
leaves unchanged, and that none changes a faulted machine. -/

namespace Sys2Proof.Machine

/-! ### All that one event can do -/

/-- What an event can do to a state (R201, R212, R213, R215). -/
inductive EventEffect (s : State) : Event → State → Prop
  | ignored {f : Fault} (e : Event) (hrun : s.run = .faulted f) : EventEffect s e s
  | ticked (hok : ∀ f, s.run ≠ .faulted f) : EventEffect s .tick s.tick
  | released (k : KeyIdx) (hok : ∀ f, s.run ≠ .faulted f) :
      EventEffect s (.keyUp k) (s.setKey k false)
  | pressed (k : KeyIdx) (hrun : s.run = .running) : EventEffect s (.keyDown k) (s.setKey k true)
  | completed {x : RegIdx} (k : KeyIdx) (hrun : s.run = .waitingKey x) : EventEffect s (.keyDown k)
      (((s.setKey k true).setReg x (BitVec.ofNat 8 k.val)).setRun .running)

theorem applyEvent_effect (s : State) (e : Event) : EventEffect s e (s.applyEvent e) := by
  by_cases hfault : ∃ f, s.run = .faulted f
  · obtain ⟨f, hf⟩ := hfault
    rw [applyEvent_of_faulted hf]
    exact .ignored e hf
  · have hok := not_exists.1 hfault
    cases e with
    | tick => rw [applyEvent_tick hok]; exact .ticked hok
    | keyUp k => rw [applyEvent_keyUp hok]; exact .released k hok
    | keyDown k =>
      cases hrun : s.run with
      | running => rw [applyEvent_keyDown_running hrun]; exact .pressed k hrun
      | waitingKey x => rw [applyEvent_keyDown_waiting hrun]; exact .completed k hrun
      | faulted f => exact absurd hrun (hok f)

section Effect

variable {s t : State} {e : Event}

/-- An event changes no register but the one that waits (R207). -/
theorem EventEffect.reg_of_ne {r : RegIdx} (h : EventEffect s e t) (hr : s.run ≠ .waitingKey r) :
    t.reg r = s.reg r := by
  cases h with
  | ignored | ticked | released | pressed => rfl
  | completed k hrun => exact reg_setReg_of_ne _ fun hrx => hr (hrx ▸ hrun)

/-- An event changes `RUN` only from a wait to running, and only if it is a `key_down` (R212). -/
theorem EventEffect.run_cases (h : EventEffect s e t) :
    t.run = s.run ∨ (∃ x, s.run = .waitingKey x) ∧ (∃ k, e = .keyDown k) ∧ t.run = .running := by
  cases h with
  | ignored | ticked | released | pressed => exact .inl rfl
  | completed k hrun => exact .inr ⟨⟨_, hrun⟩, ⟨k, rfl⟩, rfl⟩

/-- A tick or a key release changes timers and keys only (R213, R215). -/
theorem EventEffect.frame_of_ne_keyDown (h : EventEffect s e t) (hk : ∀ k, e ≠ .keyDown k) :
    t = { s with dt := t.dt, st := t.st, key := t.key } := by
  cases h with
  | ignored | ticked | released => rfl
  | pressed k | completed k => exact absurd rfl (hk k)

end Effect

/-! ### Any number of events -/

theorem applyEvents_of_faulted {s : State} {f : Fault} (h : s.run = .faulted f) :
    ∀ es, s.applyEvents es = s
  | [] => rfl
  | e :: es => by rw [applyEvents_cons, applyEvent_of_faulted h, applyEvents_of_faulted h es]

/-- No event starts a wait, so a register that does not wait is kept throughout (R207). -/
theorem applyEvents_reg_of_ne {r : RegIdx} : ∀ (es : List Event) {s : State},
    s.run ≠ .waitingKey r → (s.applyEvents es).reg r = s.reg r
  | [], _, _ => rfl
  | e :: es, s, hr => by
    have hnext : (s.applyEvent e).run ≠ .waitingKey r := by
      rcases applyEvent_run s e with h | h <;> rw [h]
      · exact hr
      · exact nofun
    rw [applyEvents_cons, applyEvents_reg_of_ne es hnext, (applyEvent_effect s e).reg_of_ne hr]

/-- `RUN` changes only from a wait to running, and only if a `key_down` is among the events (R207,
R212). -/
theorem applyEvents_run_cases : ∀ (es : List Event) (s : State),
    (s.applyEvents es).run = s.run ∨ (∃ x, s.run = .waitingKey x) ∧ (∃ k, .keyDown k ∈ es) ∧
      (s.applyEvents es).run = .running
  | [], _ => .inl rfl
  | e :: es, s => by
    rw [applyEvents_cons]
    rcases (applyEvent_effect s e).run_cases with hkept | ⟨hwait, ⟨k, rfl⟩, hrun⟩
    · rw [← hkept]
      exact (applyEvents_run_cases es (s.applyEvent e)).imp_right fun ⟨hwait, ⟨k, hk⟩, hrun⟩ =>
        ⟨hwait, ⟨k, List.mem_cons_of_mem e hk⟩, hrun⟩
    · have hstays := applyEvents_run es (s.applyEvent (.keyDown k))
      rw [hrun, or_self] at hstays
      exact .inr ⟨hwait, ⟨k, List.mem_cons_self⟩, hstays⟩

/-- Ticks and key releases change timers and keys only, so a wait goes on (R213, R215, R219). -/
theorem applyEvents_of_no_keyDown : ∀ (es : List Event) (s : State), (∀ k, .keyDown k ∉ es) →
    s.applyEvents es = { s with
      dt := (s.applyEvents es).dt, st := (s.applyEvents es).st, key := (s.applyEvents es).key }
  | [], _, _ => rfl
  | e :: es, s, hk => by
    simp only [List.mem_cons, not_or] at hk
    have hfirst := (applyEvent_effect s e).frame_of_ne_keyDown fun k he => (hk k).1 he.symm
    have hothers := applyEvents_of_no_keyDown es (s.applyEvent e) fun k => (hk k).2
    rw [applyEvents_cons, hothers, hfirst]

/-- Settles O17: the frame, the register that waits and the change of `RUN`, each through all the
events. -/
theorem eventsTouchOnlyKeysTimersAndTheWaitingRegister :
    Obligations.EventsTouchOnlyKeysTimersAndTheWaitingRegister := by
  unfold Obligations.EventsTouchOnlyKeysTimersAndTheWaitingRegister
  exact fun s es => ⟨_, rfl, applyEvents_frame es s, fun _ hr => applyEvents_reg_of_ne es hr,
    applyEvents_run_cases es s⟩

/-! ### A faulted machine -/

/-- The events due before a step leave a faulted machine faulted (R201). -/
theorem deliver_run_of_faulted {s : State} {f : Fault} (h : s.run = .faulted f) :
    s.deliver.run = .faulted f := by
  cases hsched : s.schedule with
  | nil => rw [deliver_nil hsched, h]
  | cons es rest =>
    rw [deliver_cons hsched, applyEvents_of_faulted (s := { s with schedule := rest }) h]
    exact h

/-- Settles O10: no event changes a faulted machine, so it is faulted when the step looks. -/
theorem faultIsFinal : Obligations.FaultIsFinal := by
  unfold Obligations.FaultIsFinal
  exact ⟨fun _ _ => rfl, fun _ _ h =>
    ⟨applyEvents_of_faulted h, step_of_faulted (deliver_run_of_faulted h)⟩⟩

/-! ### The keys -/

/-- Settles O14: on a running machine the event is `setKey`; on a waiting one it is the completion of
`keyWaitIsEnteredAndCompleted`. -/
theorem keyDownSetsKeyAndEndsWait : Obligations.KeyDownSetsKeyAndEndsWait := by
  unfold Obligations.KeyDownSetsKeyAndEndsWait
  refine fun s k => ⟨fun hrun => ?running, fun x hrun => ?waiting⟩
  case running =>
    exact ⟨_, applyEvent_keyDown_running hrun k, rfl, fun j => isDown_setKey s k j true⟩
  case waiting =>
    have hs : ({ s with run := .waitingKey x } : State) = s := by rw [← hrun]
    obtain ⟨-, hcompletes⟩ := keyWaitIsEnteredAndCompleted x s
    obtain ⟨t, ht, hframe, hnumber, hothers, hkeys⟩ := hcompletes k
    rw [hs] at ht
    exact ⟨t, ht, hframe, hkeys, hnumber, hothers⟩

/-- Settles O15: the event is `setKey`, which leaves `RUN` alone. -/
theorem keyUpClearsItsKeyOnly : Obligations.KeyUpClearsItsKeyOnly := by
  unfold Obligations.KeyUpClearsItsKeyOnly
  exact fun s k hok => ⟨_, applyEvent_keyUp hok k, rfl, fun j => isDown_setKey s k j false⟩

/-! ### The ticks -/

/-- The decrement of a timer stops at 0, as subtraction of naturals does (R215). -/
theorem decrement_toNat (b : Byte) : (if b = 0 then 0 else b - 1).toNat = b.toNat - 1 := by
  split
  next h => rw [h]; rfl
  next h => bv_omega

/-- `n` ticks take `n` off each timer, down to 0, and change nothing else (R215). -/
theorem applyEvents_ticks : ∀ (n : Nat) (s : State), (∀ f, s.run ≠ .faulted f) →
    ∃ t, s.applyEvents (List.replicate n .tick) = t ∧ t = { s with dt := t.dt, st := t.st } ∧
      t.dt.toNat = s.dt.toNat - n ∧ t.st.toNat = s.st.toNat - n
  | 0, _, _ => ⟨_, rfl, rfl, rfl, rfl⟩
  | n + 1, s, hok => by
    obtain ⟨t, ht, hframe, hdt, hst⟩ := applyEvents_ticks n s.tick hok
    have hdt1 : s.tick.dt.toNat = s.dt.toNat - 1 := decrement_toNat s.dt
    have hst1 : s.tick.st.toNat = s.st.toNat - 1 := decrement_toNat s.st
    rw [List.replicate_succ, applyEvents_cons, applyEvent_tick hok]
    exact ⟨t, ht, hframe, by omega, by omega⟩

end Sys2Proof.Machine
end

section
/-! Faults and the key wait (R184, R200 to R205, R219): every instruction answers a next state, and the
run state and the timers it leaves there, from which follow which faults it raises and what enters the
wait. -/

namespace Sys2Proof.Machine

/-! ### The fault of an access to consecutive addresses -/

/-- `firstOut` by its two cases (R205). -/
theorem firstOut_eq (a n : Nat) :
    firstOut a n = if a + n ≤ 4096 ∨ n = 0 then none else some (max a 4096) := by
  change (if n = 0 then none else if a + n ≤ 4096 then none else some (max a 4096)) = _
  by_cases hn : n = 0 <;> simp [hn]

/-- The run state after consecutive stores, by the first address outside memory (R205). -/
theorem storeBytes_run_firstOut (a : Nat) (bs : List Byte) (s : State) :
    (storeBytes a bs s).run =
      ((firstOut a bs.length).map (.outOfBounds .write)).elim s.run .faulted := by
  simp only [storeBytes_run, firstOut_eq, List.length_eq_zero_iff]
  split <;> rfl

/-- The run state after consecutive loads, by the first address outside memory (R205). -/
theorem loadRegs_run_firstOut (a : Nat) (rs : List RegIdx) (s : State) :
    (loadRegs a rs s).run =
      ((firstOut a rs.length).map (.outOfBounds .read)).elim s.run .faulted := by
  simp only [loadRegs_run, firstOut_eq, List.length_eq_zero_iff]
  split <;> rfl

/-! ### The run state and the timers an instruction leaves -/

/-- `RUN` after an instruction that raises no fault: only Fx0A changes it (R184). -/
def completedRun (i : Instr) (s : State) : RunState :=
  match i with
  | .ldVxK x => .waitingKey x
  | _ => s.run

/-- `RUN` after an instruction: faulted with the fault that `faultOf` gives, where it gives one (R201,
R202). -/
def runAfter (i : Instr) (s : State) : RunState := (faultOf i s).elim (completedRun i s) .faulted

/-- `DT` and `ST` after an instruction: only Fx15 and Fx18 change one (R33). -/
def timersAfter (i : Instr) (s : State) : Byte × Byte :=
  match i with
  | .ldDtVx x => (s.reg x, s.st)
  | .ldStVx x => (s.dt, s.reg x)
  | _ => (s.dt, s.st)

section

variable {i : Instr} {s : State} {f : Fault} {x : RegIdx}

theorem runAfter_of_some (h : faultOf i s = some f) : runAfter i s = .faulted f := by
  rw [runAfter, h, Option.elim_some]

theorem runAfter_of_none (h : faultOf i s = none) : runAfter i s = completedRun i s := by
  rw [runAfter, h, Option.elim_none]

/-- Without a fault a running machine goes on running or enters the wait, the latter by Fx0A alone. -/
theorem completedRun_cases (hrun : s.run = .running) :
    completedRun i s = .running ∨ ∃ x, i = .ldVxK x ∧ completedRun i s = .waitingKey x := by
  unfold completedRun
  split
  · exact .inr ⟨_, rfl, rfl⟩
  · exact .inl hrun

theorem runAfter_eq_faulted_iff (hrun : s.run = .running) :
    runAfter i s = .faulted f ↔ faultOf i s = some f := by
  refine ⟨fun h => ?_, runAfter_of_some⟩
  cases hfault : faultOf i s with
  | some g =>
    rw [runAfter_of_some hfault] at h
    cases h
    rfl
  | none =>
    rw [runAfter_of_none hfault] at h
    rcases completedRun_cases (i := i) hrun with hc | ⟨x, -, hc⟩ <;> cases hc.symm.trans h

theorem eq_ldVxK_of_runAfter_eq_waitingKey (hrun : s.run = .running)
    (h : runAfter i s = .waitingKey x) : i = .ldVxK x := by
  cases hfault : faultOf i s with
  | some g => cases (runAfter_of_some hfault).symm.trans h
  | none =>
    rw [runAfter_of_none hfault] at h
    rcases completedRun_cases (i := i) hrun with hc | ⟨y, hi, hc⟩ <;> cases hc.symm.trans h
    exact hi

theorem timersAfter_dt (h : ∀ x, i ≠ .ldDtVx x) : (timersAfter i s).1 = s.dt := by
  unfold timersAfter
  split
  · exact absurd rfl (h _)
  all_goals rfl

theorem timersAfter_st (h : ∀ x, i ≠ .ldStVx x) : (timersAfter i s).2 = s.st := by
  unfold timersAfter
  split
  · rfl
  · exact absurd rfl (h _)
  · rfl

end

/-- The instruction answers a next state, and leaves the run state `runAfter` and the timers
`timersAfter` there (R204). -/
def AnswersNext (i : Instr) (s : State) : Prop :=
  ∃ t, exec i s = .next t ∧ t.run = runAfter i s ∧ (t.dt, t.st) = timersAfter i s

/-- A conditional skip changes neither `RUN` nor a timer (R104). -/
theorem skipIf_run_timers (s : State) (c : Bool) :
    (s.skipIf c).run = s.run ∧ ((s.skipIf c).dt, (s.skipIf c).st) = (s.dt, s.st) := by
  rw [skipIf_eq]
  exact ⟨rfl, rfl⟩

theorem answersNext_ret (s : State) : AnswersNext .ret s := by
  by_cases hsp : s.sp.val = 0
  · have hfault : faultOf .ret s = some (.outOfBounds .stackPop 0) := if_pos hsp
    exact ⟨_, exec_ret_of_pop_error (pop_of_empty hsp), (runAfter_of_some hfault).symm, rfl⟩
  · have hfault : faultOf .ret s = none := if_neg hsp
    obtain ⟨j, hj⟩ := Fin.exists_succ_eq.2 fun h => hsp (congrArg Fin.val h)
    have hpop := pop_of_succ j (congrArg Fin.val hj).symm
    exact ⟨_, exec_ret_of_pop_ok hpop, (runAfter_of_none hfault).symm, rfl⟩

theorem answersNext_call (nnn : Word) (s : State) : AnswersNext (.call nnn) s := by
  by_cases hsp : s.sp.val = 16
  · have hfault : faultOf (.call nnn) s = some (.outOfBounds .stackPush 16) := if_pos hsp
    exact ⟨_, exec_call_of_push_error (push_of_full hsp), (runAfter_of_some hfault).symm, rfl⟩
  · have hfault : faultOf (.call nnn) s = none := if_neg hsp
    have hpush := push_of_lt (w := s.pc) ⟨s.sp.val, by omega⟩ rfl
    exact ⟨_, exec_call_of_push_ok hpush, (runAfter_of_none hfault).symm, rfl⟩

theorem answersNext_keySkips (x : RegIdx) (s : State) :
    AnswersNext (.skp x) s ∧ AnswersNext (.sknp x) s := by
  by_cases hx : (s.reg x).toNat > 0xF
  · obtain ⟨hskp, hsknp⟩ := exec_keySkips_of_no_key hx
    have hrun : .faulted (.keyIndexUndefined (s.reg x)) = runAfter (.skp x) s :=
      (runAfter_of_some (i := .skp x) (if_pos hx)).symm
    exact ⟨⟨_, hskp, hrun, rfl⟩, ⟨_, hsknp, hrun, rfl⟩⟩
  · obtain ⟨hskp, hsknp⟩ := exec_keySkips_of_key (x := x) (k := ⟨(s.reg x).toNat, by omega⟩) rfl
    have hrun : s.run = runAfter (.skp x) s := (runAfter_of_none (i := .skp x) (if_neg hx)).symm
    have hskip (c : Bool) := (skipIf_run_timers s c).imp_left fun h => h.trans hrun
    exact ⟨⟨_, hskp, hskip _⟩, ⟨_, hsknp, hskip _⟩⟩

theorem answersNext_drw (x y : RegIdx) (n : Nat) (s : State) : AnswersNext (.drw x y n) s := by
  have hfault : faultOf (.drw x y n) s = (firstOut s.i.toNat n).map (.outOfBounds .read) := rfl
  rw [firstOut_eq] at hfault
  by_cases hin : s.i.toNat + n ≤ 4096 ∨ n = 0
  · rw [if_pos hin] at hfault
    exact ⟨_, exec_drw_of_le hin.symm, (runAfter_of_none hfault).symm, rfl⟩
  · rw [if_neg hin] at hfault
    exact ⟨_, exec_drw_of_lt (by omega) (by omega), (runAfter_of_some hfault).symm, rfl⟩

/-- Every instruction answers a next state (R204). -/
theorem exec_next (i : Instr) (s : State) : AnswersNext i s := by
  cases i with
  | ret => exact answersNext_ret s
  | call nnn => exact answersNext_call nnn s
  | skp x => exact (answersNext_keySkips x s).1
  | sknp x => exact (answersNext_keySkips x s).2
  | drw x y n => exact answersNext_drw x y n s
  | ldB x =>
    refine ⟨_, exec_ldB x s, storeBytes_run_firstOut _ _ s, ?_⟩
    rw [storeBytes_frame]
    rfl
  | ldMemVx x =>
    refine ⟨_, exec_ldMemVx x s, ?_, ?_⟩
    · rw [storeBytes_run_firstOut, regBytes_length]
      rfl
    · rw [storeBytes_frame]
      rfl
  | ldVxMem x =>
    refine ⟨_, exec_ldVxMem x s, ?_, ?_⟩
    · rw [loadRegs_run_firstOut, regBlock_length]
      rfl
    · rw [loadRegs_frame]
      rfl
  | seImm | sneImm | seReg | sneReg => exact ⟨_, rfl, skipIf_run_timers s _⟩
  | sub | shr | subn | shl =>
    refine ⟨_, rfl, ?_⟩
    rw [writeFlagged_frame]
    exact ⟨rfl, rfl⟩
  | rnd x kk =>
    refine ⟨_, exec_rnd x kk s, ?_⟩
    rw [drawMasked_frame]
    exact ⟨rfl, rfl⟩
  | cls | jp | jpV0 | ldImm | addImm | ldReg | orReg | andReg | xorReg | addReg | ldI | ldVxDt
  | ldVxK | ldDtVx | ldStVx | addI | ldF => exact ⟨_, rfl, rfl, rfl⟩

/-- What `exec_next` says of a given next state. -/
theorem exec_run_timers {i : Instr} {s t : State} (h : exec i s = .next t) :
    t.run = runAfter i s ∧ (t.dt, t.st) = timersAfter i s := by
  obtain ⟨u, hu, hafter⟩ := exec_next i s
  cases hu.symm.trans h
  exact hafter

/-! ### What stops a machine -/

/-- A cycle answers a next state: a fetch fault, an advance or an instruction's (R70, R204). -/
theorem cycle_next (s : State) : ∃ t, cycle s = .next t := by
  rcases cycle_cases s with ⟨-, h⟩ | ⟨-, h⟩ | ⟨-, i, -, h⟩
  · exact ⟨_, h⟩
  · exact ⟨_, h⟩
  · obtain ⟨t, ht, -⟩ := exec_next i s.advance
    exact ⟨t, h.trans ht⟩

/-- Settles O11: a running machine answers by its cycle, a waiting one waits on, and a machine found
faulted after the events was faulted before them. -/
theorem onlyAFaultedMachineStops : Obligations.OnlyAFaultedMachineStops := by
  unfold Obligations.OnlyAFaultedMachineStops
  refine ⟨fun i s => (exec_next i s).imp fun _ => And.left, fun s => ?step⟩
  rcases step_cases s with ⟨-, hstep⟩ | ⟨x, -, hstep⟩ | ⟨f, hfault, hstep⟩
  · exact .inl (hstep ▸ cycle_next s.deliver)
  · exact .inl ⟨_, hstep⟩
  · rcases deliver_run s with hrun | hrun <;> rw [hfault] at hrun
    · exact .inr ⟨f, hrun.symm, hstep⟩
    · cases hrun

/-! ### Which fault is raised -/

/-- The fault a running machine's cycle raises is the fetch's or its instruction's (R202, R205). -/
theorem cycle_fault {s t : State} {f : Fault} (hrun : s.run = .running) (h : cycle s = .next t)
    (hfault : t.run = .faulted f) :
    (4096 ≤ s.pc.toNat + 1 ∧ f = .outOfBounds .fetch s.pc.toNat) ∨
    ∃ i, decodeWord (wordOf (s.mem.get s.pc.toNat) (s.mem.get (s.pc.toNat + 1))) = .instr i ∧
      faultOf i s.advance = some f := by
  rcases cycle_cases s with ⟨hpc, hc⟩ | ⟨-, hc⟩ | ⟨-, i, hdecode, hc⟩ <;> rw [hc] at h
  · cases h
    cases hfault
    exact .inl ⟨hpc, rfl⟩
  · cases h
    cases hrun.symm.trans hfault
  · have hafter := (exec_run_timers h).1.symm.trans hfault
    exact .inr ⟨i, hdecode, (runAfter_eq_faulted_iff (s := s.advance) hrun).1 hafter⟩

/-- Settles O12: an instruction leaves the run state `runAfter`, and a step raises a fault only through
the cycle of a running machine. -/
theorem instructionsRaiseExactlyTheirFaults : Obligations.InstructionsRaiseExactlyTheirFaults := by
  unfold Obligations.InstructionsRaiseExactlyTheirFaults
  refine ⟨fun i s f hf => ?raised, fun i s hrun hf => ?none, fun s t f h hfault => ?step⟩
  case raised =>
    obtain ⟨t, ht, hafter, -⟩ := exec_next i s
    exact ⟨t, ht, hafter.trans (runAfter_of_some hf)⟩
  case none =>
    obtain ⟨t, ht, hafter, -⟩ := exec_next i s
    refine ⟨t, ht, fun f hfault => ?_⟩
    have hsome := (runAfter_eq_faulted_iff hrun).1 (hafter.symm.trans hfault)
    cases hf.symm.trans hsome
  case step =>
    rcases step_cases s with ⟨hrun, hstep⟩ | ⟨x, hwait, hstep⟩ | ⟨g, -, hstep⟩ <;> rw [hstep] at h
    · have hcycle := cycle_fault hrun h hfault
      rwa [deliver_pc, deliver_mem] at hcycle
    · cases h
      cases hwait.symm.trans hfault
    · cases h

/-! ### The key wait -/

/-- Settles O13: only Fx0A leaves a running machine waiting, and the events due keep the wait when no
`key_down` is among them. -/
theorem keyWaitHoldsUntilKeyDown : Obligations.KeyWaitHoldsUntilKeyDown := by
  unfold Obligations.KeyWaitHoldsUntilKeyDown
  refine ⟨fun i s t x hrun h hwait => ?entered, fun s x hwait hsched => ?noneDue,
    fun s x es rest hwait hsched hk => ?noKeyDown⟩
  case entered =>
    exact eq_ldVxK_of_runAfter_eq_waitingKey hrun ((exec_run_timers h).1.symm.trans hwait)
  case noneDue =>
    have hs := deliver_nil hsched
    rw [step_of_waiting (x := x) (by rw [hs, hwait]), hs]
  case noKeyDown =>
    have hframe := applyEvents_of_no_keyDown es { s with schedule := rest } hk
    rw [← deliver_cons hsched] at hframe
    exact ⟨s.deliver, step_of_waiting (by rw [hframe]; exact hwait), hframe⟩

/-! ### The timers -/

/-- Settles O16: the ticks by `applyEvents_ticks`, the instructions by the timers they leave. -/
theorem ticksCountTimersDownToZero : Obligations.TicksCountTimersDownToZero := by
  unfold Obligations.TicksCountTimersDownToZero
  refine ⟨applyEvents_ticks, fun i s t h => ?instruction⟩
  obtain ⟨-, htimers⟩ := exec_run_timers h
  exact ⟨fun hi => (congrArg Prod.fst htimers).trans (timersAfter_dt hi),
    fun hi => (congrArg Prod.snd htimers).trans (timersAfter_st hi)⟩

end Sys2Proof.Machine
end

section
/-! Load and the end of a run: where a load places an image (R242, R243), and the jump to itself at
which a run has ended (R254). -/

namespace Sys2Proof.Machine

/-! ### Load -/

/-- An image that fits is placed at 0x200 and `PC` is set to its start (R242, R243). -/
theorem load_of_le {image : List Byte} (s : State) (h : image.length ≤ 3584) :
    s.load image = some { s with mem := s.mem.putBytes 0x200 image, pc := 0x200 } := if_pos h

/-- An image that does not fit is refused (R242). -/
theorem load_of_lt {image : List Byte} (s : State) (h : 3584 < image.length) :
    s.load image = none := if_neg (Nat.not_le.2 h)

/-- What memory reads as once an image that fits has been placed in it (R243). -/
theorem get_putBytes_image {m : Memory} {image : List Byte} (hwf : m.wf = true)
    (hlen : image.length ≤ 3584) (a : Nat) :
    (m.putBytes 0x200 image).get a =
      if 0x200 ≤ a ∧ a < 0x200 + image.length then image.getD (a - 0x200) 0 else m.get a := by
  have hfits : 0x200 + image.length ≤ Config.memSize := by rw [Config.memSize]; omega
  exact Memory.get_putBytes hfits hwf a

/-- Settles O57: by the length of the image, and `get_putBytes_image` at an address inside it and at
one outside. -/
theorem loadPlacesTheImage : Obligations.LoadPlacesTheImage := by
  unfold Obligations.LoadPlacesTheImage
  refine fun s image hwf => ⟨load_of_lt s, fun hlen => ⟨_, load_of_le s hlen, rfl, ?inside, ?outside⟩⟩
  case inside =>
    intro j hj
    rw [get_putBytes_image hwf hlen, if_pos (by omega), Nat.add_sub_cancel_left]
  case outside =>
    intro a ha
    rw [get_putBytes_image hwf hlen, if_neg ha]

/-! ### The end of a run -/

/-- A run has ended where a running machine would fetch a jump to its own address (R254). -/
theorem ended_iff (s : State) : s.ended = true ↔
    s.run = .running ∧ s.pc.toNat + 1 < 4096 ∧
      decodeWord (wordOf (s.mem.get s.pc.toNat) (s.mem.get (s.pc.toNat + 1))) = .instr (.jp s.pc) := by
  unfold State.ended
  rcases Nat.lt_or_ge (s.pc.toNat + 1) 4096 with hpc | hpc
  · rw [fetchWord_of_lt hpc]
    cases s.run <;> simp [hpc]
  · rw [fetchWord_of_le hpc]
    cases s.run <;> simp [Nat.not_lt.2 hpc]

/-- A jump to its own address leaves the state as it was before the fetch advance (R102). -/
theorem exec_jp_self_advance (s : State) : exec (.jp s.pc) s.advance = .next s := rfl

/-- Settles O58: with no event due the step is the cycle of the jump to itself. -/
theorem endedRunStaysUnchanged : Obligations.EndedRunStaysUnchanged := by
  unfold Obligations.EndedRunStaysUnchanged
  intro s hended hsched
  obtain ⟨hrun, hpc, hdecode⟩ := (ended_iff s).1 hended
  have hdeliver : s.deliver = s := deliver_nil hsched
  calc step s = cycle s := by rw [step_of_running (by rw [hdeliver, hrun]), hdeliver]
    _ = exec (.jp s.pc) s.advance := cycle_of_instr hpc hdecode
    _ = .next s := exec_jp_self_advance s

end Sys2Proof.Machine
end
